-- ==== Sys2Proof/Word.lean ====
section
/-! DEFINITION. The engine's three plain value types (spec R6, R8): every value is unsigned, bit 0 is the least
significant bit. Addition of `Word`s is the `+32` of R9 (modulo 2^32, the carry is discarded: R175). -/

namespace Sys2Proof

/-- A 32-bit word: accumulator words, schedule words, command and response words (R6). -/
abbrev Word := BitVec 32

/-- A message byte (R10). -/
abbrev Byte := BitVec 8

/-- The 64-bit value of TOTALLEN and of the length suffix (R25, R142). -/
abbrev DWord := BitVec 64

end Sys2Proof
end

