-- ==== Sys2Proof/Config.lean ====
section
/-! DEFINITION. The engine's fixed parameters (spec R3, R6). The engine has no configuration bits (R31) and the spec
leaves no value open that an observation reads, so there is no free value here: what R26 and R33 to R36 leave
unspecified is unobservable (log entries 1 and 2), and the model is untimed as R7 allows (log entry 9). -/

namespace Sys2Proof.Config

/-- Block size in bytes (R3, R6). -/
def blockBytes : Nat := 64

/-- Digest size in bytes (R3, R6). -/
def digestBytes : Nat := 20

/-- The largest LEN of one ABSORB: the ARG field is 24 bits (R6, R75). -/
def maxAbsorbLen : Nat := 16777215

end Sys2Proof.Config
end

