-- ==== Sys2Proof/Machine/Operands.lean ====
section
/-! DEFINITION. Operand assembly: the word rotation of spec R9, the byte orders of R10 and R51 to R54 (all
big-endian, none switchable), and the packing of message bytes in payload words (R54, R60, R71). -/

namespace Sys2Proof.Machine

/-- `rotl32(x, n)` for 0 < n < 32 (R9); only n = 1, 5 and 30 occur. -/
def rotl32 (x : Word) (n : Nat) : Word := (x <<< n) ||| (x >>> (32 - n))

/-- `BE32(b0, b1, b2, b3)`: the first byte is the most significant (R10, R51). -/
def be32 (b0 b1 b2 b3 : Byte) : Word := b0 ++ b1 ++ b2 ++ b3

/-- `BE32bytes(w)`, the inverse of `be32` (R10). -/
def be32bytes (w : Word) : List Byte :=
  [w.extractLsb' 24 8, w.extractLsb' 16 8, w.extractLsb' 8 8, w.extractLsb' 0 8]

/-- `BE64bytes(v)`: eight bytes, most significant first (R10, R52). -/
def be64bytes (v : DWord) : List Byte :=
  [v.extractLsb' 56 8, v.extractLsb' 48 8, v.extractLsb' 40 8, v.extractLsb' 32 8,
   v.extractLsb' 24 8, v.extractLsb' 16 8, v.extractLsb' 8 8, v.extractLsb' 0 8]

/-- `ceil(len / 4)`: the number of payload words of an ABSORB of `len` bytes (R71). -/
def wordsForBytes (len : Nat) : Nat := (len + 3) / 4

/-- The message bytes an ABSORB's payload carries: the first `len` bytes of the words read big-endian (R54, R73).
The lanes beyond `len` are dropped, whatever they hold (R60). -/
def messageBytes (len : Nat) (ws : List Word) : List Byte := (ws.flatMap be32bytes).take len

/-- `packwords(d)`: four bytes a word, first byte in bits 31:24, unused low lanes of the last word 0x00 (R54, R84). -/
def packWords : List Byte → List Word
  | [] => []
  | [b0] => [be32 b0 0 0 0]
  | [b0, b1] => [be32 b0 b1 0 0]
  | [b0, b1, b2] => [be32 b0 b1 b2 0]
  | b0 :: b1 :: b2 :: b3 :: rest => be32 b0 b1 b2 b3 :: packWords rest

end Sys2Proof.Machine
end

