-- ==== Sys2Proof/Syntax.lean ====
section
/-! DEFINITION. The commands of the engine, one constructor per row of the opcode table (spec R72). A command is the
engine's "instruction" (R14). -/

namespace Sys2Proof

/-- One command with its payload. -/
inductive Instr where
  /-- RESET: return the engine to its initial state (R100). -/
  | reset
  /-- SETSTATE: payload word `Pi` is the value for `H[i]` (R71, R101). -/
  | setstate (p0 p1 p2 p3 p4 : Word)
  /-- ABSORB: the message bytes, first byte first (R120). -/
  | absorb (data : List Byte)
  /-- FINALIZE: no operand, five response words (R140). -/
  | finalize
  /-- SETLEN64: mark one block as already processed (R104). -/
  | setlen64
  deriving DecidableEq, Repr

end Sys2Proof
end

