-- ==== Sys2Proof/WellFormed.lean ====
section
/-! DEFINITION. When a command can be written as words: an ABSORB carries at most 16,777,215 bytes (spec R75, R120);
every value of every other operand is legal (R77, R101). The assembler refuses what this check refuses (R80). -/

namespace Sys2Proof

/-- The command has an encoding. -/
def Instr.wellFormed : Instr → Bool
  | .reset => true
  | .setstate _ _ _ _ _ => true
  | .absorb data => decide (data.length ≤ Config.maxAbsorbLen)
  | .finalize => true
  | .setlen64 => true

end Sys2Proof
end

