-- ==== Sys2Proof/Decode.lean ====
section
/-! DEFINITION. From command words to commands (spec R70 to R79) and back (R84). The command channel moves whole 32-bit
words (R61), so the decoder reads a list of words, first word first. -/

namespace Sys2Proof

/-- What a legal header word says (R71, R72): the opcode, and LEN for ABSORB. -/
inductive Header where
  | reset
  | setstate
  | absorb (len : Nat)
  | finalize
  | setlen64
  deriving DecidableEq, Repr

/-- Why a list of words is not the start of a command. -/
inductive DecodeError where
  /-- OPC = 0x00 or 0x06 to 0xFF (R76): the engine raises ILLEGAL_COMMAND. -/
  | reservedOpcode
  /-- ARG ≠ 0 with OPC 0x01, 0x02, 0x04 or 0x05 (R77): the engine raises ILLEGAL_COMMAND. -/
  | reservedArg
  /-- No word is offered: the engine is idle, no fault (R225, R242). -/
  | noHeader
  /-- The header is legal and its payload words have not all arrived: the engine waits, no fault (R251). -/
  | payloadMissing
  deriving DecidableEq, Repr

/-- The OPC field, bits 7:0 of a header (R70). -/
def opcodeField (hdr : Word) : BitVec 8 := hdr.extractLsb' 0 8

/-- The ARG field, bits 31:8 of a header (R70). -/
def argField (hdr : Word) : BitVec 24 := hdr.extractLsb' 8 24

/-- A header of an opcode that reserves ARG: legal only when ARG is 0 (R77). -/
def plainHeader (k : Header) (arg : BitVec 24) : Except DecodeError Header :=
  if arg = 0 then .ok k else .error .reservedArg

/-- The header check of R73: total on every word (R79); LEN is ARG zero-extended, every value legal (R75, R77). -/
def decodeHeader (hdr : Word) : Except DecodeError Header :=
  match (opcodeField hdr).toNat with
  | 1 => plainHeader .reset (argField hdr)
  | 2 => plainHeader .setstate (argField hdr)
  | 3 => .ok (.absorb (argField hdr).toNat)
  | 4 => plainHeader .finalize (argField hdr)
  | 5 => plainHeader .setlen64 (argField hdr)
  | _ => .error .reservedOpcode

/-- How many payload words follow the header (R71, R74). -/
def Header.payloadWords : Header → Nat
  | .reset => 0
  | .setstate => 5
  | .absorb len => Machine.wordsForBytes len
  | .finalize => 0
  | .setlen64 => 0

/-- The command a header and its payload words (exactly `payloadWords` of them) stand for (R71, R73). -/
def Header.assemble : Header → List Word → Instr
  | .reset, _ => .reset
  | .setstate, ws => .setstate (ws.getD 0 0) (ws.getD 1 0) (ws.getD 2 0) (ws.getD 3 0) (ws.getD 4 0)
  | .absorb len, ws => .absorb (Machine.messageBytes len ws)
  | .finalize, _ => .finalize
  | .setlen64, _ => .setlen64

/-- The command at the front of a word stream, and the words after it (R73, R74). -/
def decode : List Word → Except DecodeError (Instr × List Word)
  | [] => .error .noHeader
  | hdr :: ws =>
    match decodeHeader hdr with
    | .error e => .error e
    | .ok k =>
      if ws.length < k.payloadWords then .error .payloadMissing
      else .ok (k.assemble (ws.take k.payloadWords), ws.drop k.payloadWords)

/-! The encoder of R84. -/

/-- The header of a command. -/
def Instr.header : Instr → Header
  | .reset => .reset
  | .setstate _ _ _ _ _ => .setstate
  | .absorb data => .absorb data.length
  | .finalize => .finalize
  | .setlen64 => .setlen64

/-- The header word: ARG in bits 31:8, OPC in bits 7:0 (R70, R72). LEN is taken modulo 2^24, which is LEN itself for
every well-formed ABSORB. -/
def Header.word : Header → Word
  | .reset => 0x00000001
  | .setstate => 0x00000002
  | .absorb len => BitVec.ofNat 24 len ++ (0x03 : BitVec 8)
  | .finalize => 0x00000004
  | .setlen64 => 0x00000005

/-- The payload words of a command (R71, R84). -/
def Instr.payload : Instr → List Word
  | .reset => []
  | .setstate p0 p1 p2 p3 p4 => [p0, p1, p2, p3, p4]
  | .absorb data => Machine.packWords data
  | .finalize => []
  | .setlen64 => []

/-- `enc(c)` of R84; meant for a well-formed command. -/
def encode (i : Instr) : List Word := i.header.word :: i.payload

/-- The words of a list of commands, in order; the assembler refuses a list that holds an ABSORB operand longer than
16,777,215 bytes (R80). -/
def assemble (is : List Instr) : Option (List Word) :=
  if is.all Instr.wellFormed then some (is.flatMap encode) else none

/-! The words of an opcode-table row. -/

/-- The command words whose bits are `w`, bit 0 the least significant bit of the first word, bits from `nbits` on zero:
the header and as many payload words as it announces. -/
def tableWords (nbits w : Nat) : List Word :=
  let v := w % 2 ^ nbits
  let hdr : Word := BitVec.ofNat 32 v
  match decodeHeader hdr with
  | .error _ => [hdr]
  | .ok k => hdr :: (List.range k.payloadWords).map fun j => BitVec.ofNat 32 (v >>> (32 * (j + 1)))

/-- The command the decoder reads from an opcode-table word. -/
def decodeTableWord (nbits w : Nat) : Option Instr :=
  match decode (tableWords nbits w) with
  | .ok (i, _) => some i
  | .error _ => none

end Sys2Proof
end

