-- ==== Sys2Proof/Machine/Types.lean ====
section
/-! DEFINITION. The register groups the spec names, as plain data. -/

namespace Sys2Proof.Machine

/-- Five accumulator words, H[0] to H[4] (R20) or CH[0] to CH[4] (R33). -/
structure Accum where
  h0 : Word
  h1 : Word
  h2 : Word
  h3 : Word
  h4 : Word
  deriving DecidableEq, Repr

/-- A state set `S` of R121: the registers H, BUF, BUFLEN, TOTALLEN, either the live ones (R20 to R25) or those of the
finalize copy (R33). BUF is 64 bytes (R23), BUFLEN counts 0 to 63 in 6 bits (R24), TOTALLEN is 64 bits (R25). -/
structure StateSet where
  h        : Accum
  buf      : Vector Byte 64
  bufLen   : Fin 64
  totalLen : DWord
  deriving DecidableEq, Repr

/-- The working registers a to e of COMPRESS (R34). -/
structure Work where
  a : Word
  b : Word
  c : Word
  d : Word
  e : Word
  deriving DecidableEq, Repr

/-- The hidden registers of a command at work: a to e (R34), the message schedule W[0..79] (R35), the round counter t and
the chunk position inside an ABSORB or FINALIZE (R36), the `p` of R121. -/
structure Scratch where
  work : Work
  w    : Vector Word 80
  t    : Fin 80
  pos  : Nat
  deriving DecidableEq, Repr

/-- What ABSORB_INTO runs on: a state set and the hidden registers of COMPRESS (R121, R160). -/
structure Lane where
  set     : StateSet
  scratch : Scratch
  deriving DecidableEq, Repr

/-- The fault causes (R201). Codes 4 to 7 are never produced (R30) and have no constructor. -/
inductive Cause where
  | none
  | illegalCommand
  | sequenceError
  | padAssert
  deriving DecidableEq, Repr

end Sys2Proof.Machine
end

