-- ==== Sys2Proof/Machine/Constants.lean ====
section
/-! DEFINITION. The read-only constants, fixed in the hardware (spec R45): the IV (R21) and the round constants
(R168). -/

namespace Sys2Proof.Machine

/-- The initialization vector (R21). -/
def iv : Accum :=
  { h0 := 0x67452301, h1 := 0xEFCDAB89, h2 := 0x98BADCFE, h3 := 0x10325476, h4 := 0xC3D2E1F0 }

/-- The round constant K(t) for 0 ≤ t ≤ 79 (R168). -/
def roundConst (t : Nat) : Word :=
  if t ≤ 19 then 0x5A827999
  else if t ≤ 39 then 0x6ED9EBA1
  else if t ≤ 59 then 0x8F1BBCDC
  else 0xCA62C1D6

end Sys2Proof.Machine
end

