-- ==== Sys2Proof/Machine/Compress.lean ====
section
/-! DEFINITION. The block transform and the message scheduler (spec R160 to R177). COMPRESS has no opcode; ABSORB and
FINALIZE run it. It raises nothing and has no illegal input (R174). -/

namespace Sys2Proof.Machine

/-- Schedule words 0 to 15: the block read as big-endian words (R51, R161). -/
def blockWords : List Byte → List Word
  | b0 :: b1 :: b2 :: b3 :: rest => be32 b0 b1 b2 b3 :: blockWords rest
  | _ => []

/-- W[t] from the words before it, newest first: `rotl32(W[t-3] ^ W[t-8] ^ W[t-14] ^ W[t-16], 1)` (R162). -/
def nextScheduleWord (newestFirst : List Word) : Word :=
  rotl32 (newestFirst.getD 2 0 ^^^ newestFirst.getD 7 0 ^^^ newestFirst.getD 13 0 ^^^ newestFirst.getD 15 0) 1

/-- `n` more schedule words, newest first (R162). -/
def extendSchedule : Nat → List Word → List Word
  | 0, ws => ws
  | n + 1, ws => extendSchedule n (nextScheduleWord ws :: ws)

/-- The message schedule W[0..79] of a 64-byte block (R35, R161, R162). -/
def schedule (blk : List Byte) : List Word := (extendSchedule 64 (blockWords blk).reverse).reverse

/-- The round function f(t, b, c, d): choice, parity, majority, parity (R163 to R166). -/
def roundFun (t : Nat) (b c d : Word) : Word :=
  if t ≤ 19 then (b &&& c) ||| (~~~b &&& d)
  else if t ≤ 39 then b ^^^ c ^^^ d
  else if t ≤ 59 then (b &&& c) ||| (b &&& d) ||| (c &&& d)
  else b ^^^ c ^^^ d

/-- The working registers at the start of a block (R169). -/
def Work.init (x : Accum) : Work := { a := x.h0, b := x.h1, c := x.h2, d := x.h3, e := x.h4 }

/-- Round t with schedule word `w`: the five assignments read the values from before the round (R171). -/
def roundStep (t : Nat) (w : Word) (r : Work) : Work :=
  { a := rotl32 r.a 5 + roundFun t r.b r.c r.d + r.e + roundConst t + w
    b := r.a
    c := rotl32 r.b 30
    d := r.c
    e := r.d }

/-- The rounds from t on, one per schedule word, in order (R171). -/
def runRounds : Nat → List Word → Work → Work
  | _, [], r => r
  | t, w :: ws, r => runRounds (t + 1) ws (roundStep t w r)

/-- The working registers after the last round of a block (R170). -/
def compressWork (x : Accum) (blk : List Byte) : Work := runRounds 0 (schedule blk) (Work.init x)

/-- Feed-forward: each accumulator word is incremented by its working register (R172). -/
def feedForward (x : Accum) (r : Work) : Accum :=
  { h0 := x.h0 + r.a, h1 := x.h1 + r.b, h2 := x.h2 + r.c, h3 := x.h3 + r.d, h4 := x.h4 + r.e }

/-- `COMPRESS(X, blk)` as a value: the accumulator after the block (R170). -/
def compressBlock (x : Accum) (blk : List Byte) : Accum := feedForward x (compressWork x blk)

/-- The hidden registers after COMPRESS as R170 leaves them: a to e after round 79, W whole, t at its last value; the
chunk position is not COMPRESS's. They are unobservable (R34 to R36; log entry 2). -/
def Scratch.afterCompress (z : Scratch) (x : Accum) (blk : List Byte) : Scratch :=
  { work := compressWork x blk
    w := Vector.ofFn fun i : Fin 80 => (schedule blk).getD i.val 0
    t := 79
    pos := z.pos }

/-- `COMPRESS(S, blk)`: writes S's accumulator and the hidden registers, nothing else of S (R160, R170). -/
def Lane.compress (l : Lane) (blk : List Byte) : Lane :=
  { set := { l.set with h := compressBlock l.set.h blk }
    scratch := l.scratch.afterCompress l.set.h blk }

end Sys2Proof.Machine
end

