-- ==== Sys2Proof/Machine/State.lean ====
section
/-! DEFINITION. The state of the engine and of its four interfaces (spec R20 to R37, R55 to R58), as plain data, and
the state after reset (R44). -/

namespace Sys2Proof.Machine

/-- Everything the spec gives the engine, and the channels it is reached through.

The first seven fields are registers (R44). `taken` and `rspBuf` are the position inside the command in progress (R36,
R37). The last four are the outside of the interfaces at the transaction level (R55, R56, R58): what the host offers,
whether it takes responses, the reset input, and the words it has been given. -/
structure State where
  /-- H, BUF, BUFLEN, TOTALLEN (R20, R23, R24, R25). -/
  live     : StateSet
  /-- FRESH: no ABSORB has run since the last RESET or hardware reset (R27). -/
  fresh    : Bool
  /-- STATUS.FAULT (R28, R29). -/
  fault    : Bool
  /-- STATUS.CAUSE (R28, R30). -/
  cause    : Cause
  /-- The finalize copy CH, CBUF, CBUFLEN, CTOTALLEN (R33); never observable between commands. -/
  copy     : StateSet
  /-- The hidden registers (R34, R35, R36); never observable between blocks. -/
  scratch  : Scratch
  /-- The header and payload words the engine has taken of a command whose payload has not all arrived (R251); empty when
  the next word taken is a header (R44). -/
  taken    : List Word
  /-- The response buffer: response words the host has not yet taken, first word first (R37). -/
  rspBuf   : List Word
  /-- Command channel: the words the host offers, in order, not yet taken (R55). -/
  cmd      : List Word
  /-- Response channel: `rsp_ready` (R56). -/
  rspReady : Bool
  /-- The reset input `rst` (R58). -/
  rst      : Bool
  /-- Response channel: the words the host has taken since the model began, oldest first (R56). -/
  rspOut   : List Word
  deriving DecidableEq, Repr

/-- What a step answers when the engine has no enabled step. -/
inductive Fault where
  /-- The engine is in the fault state with this cause and the reset input is not asserted: "the engine then has no
  enabled step" (R204). Raised by `step`, never by a command's meaning. Safe: the machine stops where the hardware stops. -/
  | halted (cause : Cause)
  deriving DecidableEq, Repr

/-- Why a command has no meaning. -/
inductive Refusal where
  /-- A command not modelled yet, by its mnemonic. Raised by no arm of `exec`: every command of the table is modelled.
  Safe. -/
  | notModelled (mnemonic : String)
  deriving DecidableEq, Repr

/-- A state set just after reset: H = IV, BUFLEN = 0, TOTALLEN = 0 (R44). BUF is unspecified and unobservable (R26); the
model holds 0x00 bytes (DESIGN CHOICE, log entry 1). -/
def StateSet.reset : StateSet :=
  { h := iv, buf := Vector.replicate 64 0, bufLen := 0, totalLen := 0 }

/-- The hidden registers at reset: unspecified and unobservable (R44); the model holds zeros (DESIGN CHOICE, log entry
2). -/
def Scratch.reset : Scratch :=
  { work := { a := 0, b := 0, c := 0, d := 0, e := 0 }, w := Vector.replicate 80 0, t := 0, pos := 0 }

/-- The machine right after reset (R44, R240, R242): the IV loaded, nothing buffered, FRESH = 1, no fault, no command in
progress and no response pending. The host offers nothing yet, is ready to take responses and has released the reset
input (DESIGN CHOICE, log entry 5). The finalize copy holds what the live registers hold (DESIGN CHOICE, log entry 2). -/
def State.reset : State :=
  { live := StateSet.reset, fresh := true, fault := false, cause := .none,
    copy := StateSet.reset, scratch := Scratch.reset, taken := [], rspBuf := [],
    cmd := [], rspReady := true, rst := false, rspOut := [] }

end Sys2Proof.Machine
end

