-- ==== Sys2Proof/Machine/Ops.lean ====
section
/-! DEFINITION. The shared operations on the state: writing BUF, entering the fault state, the reset input, the two
channels, and the accumulator's words in order. Every meaning and the step go through these. -/

namespace Sys2Proof.Machine

/-- The words of an accumulator, element 0 first (R8). -/
def Accum.words (x : Accum) : List Word := [x.h0, x.h1, x.h2, x.h3, x.h4]

/-- `for i: BUF[at + i] <- bytes[i]` (R121): writes inside BUF only. -/
def writeBytes (buf : Vector Byte 64) (start : Nat) : List Byte → Vector Byte 64
  | [] => buf
  | b :: rest => writeBytes (buf.setIfInBounds start b) (start + 1) rest

/-- Fault entry with cause `c` (R204): STATUS.FAULT and STATUS.CAUSE are written, nothing else; no response word is
written, and a faulted engine takes no further word (`State.cmdReady`, `step`). There is no handler, no saved position and
no return (R206, R207). -/
def State.enterFault (s : State) (c : Cause) : State := { s with fault := true, cause := c }

/-- What the reset input does (R240, R241): every register and the command in progress take their reset values. What
stands outside the engine is the host's: the words it still offers, its `rsp_ready`, the input itself, and the words it
has already been given. -/
def State.resetInput (s : State) : State :=
  { State.reset with cmd := s.cmd, rspReady := s.rspReady, rst := s.rst, rspOut := s.rspOut }

/-- The words of the command at hand: those already taken, then those the host offers (R55). -/
def State.stream (s : State) : List Word := s.taken ++ s.cmd

/-- The engine is between commands once it has taken all of a command: the channel holds `rest`. -/
def State.consumeTo (s : State) (rest : List Word) : State := { s with taken := [], cmd := rest }

/-- The engine has taken all words offered so far, `got`, and waits for the rest of the payload (R251); no live state is
written. -/
def State.holdForPayload (s : State) (got : List Word) : State := { s with taken := got, cmd := [] }

/-- The host takes the first response word `w`, leaving `rest` (R56). -/
def State.deliver (s : State) (w : Word) (rest : List Word) : State :=
  { s with rspBuf := rest, rspOut := s.rspOut ++ [w] }

/-- The engine offers response words (R56, R147). -/
def State.respond (s : State) (ws : List Word) : State := { s with rspBuf := s.rspBuf ++ ws }

/-- `cmd_ready` (R55): 0 while the engine is faulted (R204), while a response word is untaken (R250) and while reset is
asserted (DEDUCED, log entry 6). -/
def State.cmdReady (s : State) : Bool := !s.rst && !s.fault && s.rspBuf.isEmpty

/-- `cmd_valid` (R55): the host offers a word. -/
def State.cmdValid (s : State) : Bool := !s.cmd.isEmpty

/-- `rsp_valid` (R56): the engine offers a word. It follows the response buffer also while `rst` is asserted and no step has
seen it yet: an untaken word is still shown, and the next step resets and transfers nothing (DESIGN CHOICE, log entry
16). -/
def State.rspValid (s : State) : Bool := !s.rspBuf.isEmpty

/-- `rsp_data` (R56), meaningful while `rsp_valid` is 1; under an asserted `rst` as `rspValid` says (log entry 16). -/
def State.rspData (s : State) : Option Word := s.rspBuf.head?

end Sys2Proof.Machine
end

