-- ==== Sys2Proof/Machine/Absorb.lean ====
section
/-! DEFINITION. ABSORB and the shared algorithm ABSORB_INTO (spec R121), which FINALIZE runs on its copy. -/

namespace Sys2Proof.Machine

/-- Step 1 of R121: TOTALLEN counts the bytes modulo 2^64. -/
def Lane.addLength (l : Lane) (n : Nat) : Lane :=
  { l with set := { l.set with totalLen := l.set.totalLen + BitVec.ofNat 64 n } }

/-- Step 2 of R121: with a partial buffer, the first `min (64 - BUFLEN) n` bytes of `data` go into it; a full buffer is
compressed at once and BUFLEN becomes 0. Answers the lane and the bytes still to take. -/
def Lane.topUp (l : Lane) (data : List Byte) : Lane × List Byte :=
  if l.set.bufLen.val = 0 then (l, data)
  else
    let k := min (64 - l.set.bufLen.val) data.length
    let buf := writeBytes l.set.buf l.set.bufLen.val (data.take k)
    let filled : Lane := { l with set := { l.set with buf := buf } }
    let fill := l.set.bufLen.val + k
    if h : fill < 64 then
      ({ filled with set := { filled.set with bufLen := ⟨fill, h⟩ } }, data.drop k)
    else
      let done := filled.compress buf.toList
      ({ done with set := { done.set with bufLen := 0 } }, data.drop k)

/-- Step 3 of R121: `n` whole 64-byte chunks straight from the data, in order. -/
def Lane.absorbChunks : Nat → Lane → List Byte → Lane
  | 0, l, _ => l
  | n + 1, l, data => Lane.absorbChunks n (l.compress (data.take 64)) (data.drop 64)

/-- Step 4 of R121: a tail of fewer than 64 bytes goes to the start of BUF and becomes its valid bytes; no tail, no
write. -/
def Lane.storeTail (l : Lane) (tail : List Byte) : Lane :=
  if tail = [] then l
  else { l with set := { l.set with buf := writeBytes l.set.buf 0 tail, bufLen := Fin.ofNat 64 tail.length } }

/-- The chunk position: how many bytes of the data have gone into the buffer's top-up and into whole chunks, the `p` of
R121. -/
def Lane.atPosition (l : Lane) (p : Nat) : Lane := { l with scratch := { l.scratch with pos := p } }

/-- `ABSORB_INTO(S, data)` (R121): the loop `while n - p >= 64` of step 3 runs `length / 64` times, and leaves `p` where
the tail begins. The number of compressions is R121's, floor((BUFLEN + n) / 64), which for n = 16,777,215 and BUFLEN > 0
is 262,144, one more than the "at most 262,143" that R243 says in passing (DESIGN CHOICE, log entry 15). -/
def Lane.absorbInto (l : Lane) (data : List Byte) : Lane :=
  let (topped, rest) := (l.addLength data.length).topUp data
  let m := rest.length / 64
  let tail := rest.drop (64 * m)
  ((topped.absorbChunks m rest).storeTail tail).atPosition (data.length - tail.length)

/-- The live registers and the hidden ones, as ABSORB_INTO takes them. -/
def State.lane (s : State) : Lane := { set := s.live, scratch := s.scratch }

/-- Write a lane back to the live registers. -/
def State.putLive (s : State) (l : Lane) : State := { s with live := l.set, scratch := l.scratch }

/-- ABSORB (R121, R122): the data joins the live stream and FRESH is cleared, for LEN = 0 too (R126). It raises nothing
(R123) and writes no response. -/
def execAbsorb (data : List Byte) (s : State) : Host.Outcome State Fault Refusal :=
  .next { s.putLive (s.lane.absorbInto data) with fresh := false }

end Sys2Proof.Machine
end

