-- ==== Sys2Proof/Machine/Control.lean ====
section
/-! DEFINITION. The engine control commands RESET, SETSTATE and SETLEN64 (spec R100 to R105). Their ILLEGAL_COMMAND
(ARG ≠ 0) is raised while the header is decoded (R202) and so stands in Machine/Fetch.lean. -/

namespace Sys2Proof.Machine

/-- RESET (R100): H, BUFLEN, TOTALLEN and FRESH; BUF and STATUS.FAULT, STATUS.CAUSE are not written. -/
def execReset (s : State) : Host.Outcome State Fault Refusal :=
  .next { s with live := { s.live with h := iv, bufLen := 0, totalLen := 0 }, fresh := true }

/-- SETSTATE (R101): SEQUENCE_ERROR when FRESH = 0; otherwise H[i] <- Pi and nothing else. -/
def execSetstate (p0 p1 p2 p3 p4 : Word) (s : State) : Host.Outcome State Fault Refusal :=
  if s.fresh then
    .next { s with live := { s.live with h := { h0 := p0, h1 := p1, h2 := p2, h3 := p3, h4 := p4 } } }
  else .next (s.enterFault .sequenceError)

/-- SETLEN64 (R104): SEQUENCE_ERROR when FRESH = 0; otherwise TOTALLEN <- 64 and nothing else. -/
def execSetlen64 (s : State) : Host.Outcome State Fault Refusal :=
  if s.fresh then .next { s with live := { s.live with totalLen := 64 } }
  else .next (s.enterFault .sequenceError)

end Sys2Proof.Machine
end

