-- ==== Sys2Proof/Machine/Finalize.lean ====
section
/-! DEFINITION. FINALIZE, the padding and finalization unit (spec R140 to R153), with the corrected padding length of
conflict C1. -/

namespace Sys2Proof.Machine

/-- bitLen: TOTALLEN * 8 modulo 2^64, from the live TOTALLEN before any padding (R142). -/
def bitLen (totalLen : DWord) : DWord := totalLen * 8

/-- The padding length P, the 0x80 byte included (R144). -/
def padLength (totalLen : DWord) : Nat :=
  let r := totalLen.toNat % 64
  if r < 56 then 56 - r else 120 - r

/-- The padding bytes: 0x80, then P - 1 zero bytes (R144). -/
def padding (totalLen : DWord) : List Byte := 0x80 :: List.replicate (padLength totalLen - 1) 0

/-- Steps 2 and 3 of R141 on a copy of the live registers: absorb the padding, then the length suffix (R143, R145). -/
def State.paddedCopy (s : State) : Lane :=
  (s.lane.absorbInto (padding s.live.totalLen)).absorbInto (be64bytes (bitLen s.live.totalLen))

/-- Write a lane back to the finalize copy (R143): the live registers are not touched. -/
def State.putCopy (s : State) (l : Lane) : State := { s with copy := l.set, scratch := l.scratch }

/-- FINALIZE (R141, R148): the digest of the padded copy is offered as five response words, CH[0] first (R147); if the copy
is not exactly full, PAD_ASSERT and no response (R146). -/
def execFinalize (s : State) : Host.Outcome State Fault Refusal :=
  let c := s.paddedCopy
  if c.set.bufLen.val = 0 then .next ((s.putCopy c).respond c.set.h.words)
  else .next ((s.putCopy c).enterFault .padAssert)

end Sys2Proof.Machine
end

