-- ==== Sys2Proof/Machine/Dispatch.lean ====
section
/-! DEFINITION. One arm per command (spec R72): each is one direct call of its meaning. -/

namespace Sys2Proof.Machine

def exec (i : Instr) (s : State) : Host.Outcome State Fault Refusal :=
  match i with
  | .reset => Sys2Proof.Machine.execReset s
  | .setstate p0 p1 p2 p3 p4 => Sys2Proof.Machine.execSetstate p0 p1 p2 p3 p4 s
  | .absorb data => Sys2Proof.Machine.execAbsorb data s
  | .finalize => Sys2Proof.Machine.execFinalize s
  | .setlen64 => Sys2Proof.Machine.execSetlen64 s

end Sys2Proof.Machine
end

