-- ==== Sys2Proof/Machine/Fetch.lean ====
section
/-! DEFINITION. Taking a command from the command channel (spec R55, R73) and giving response words to the host (R56).
The checks run in the order of R210, each before the payload is read. -/

namespace Sys2Proof.Machine

/-- SETSTATE and SETLEN64 may run only while FRESH = 1 (R101, R104): the check that R73 puts between the header check and
the payload. -/
def outOfSequence (k : Header) (fresh : Bool) : Bool :=
  match k with
  | .setstate => !fresh
  | .setlen64 => !fresh
  | .reset => false
  | .absorb _ => false
  | .finalize => false

/-- The engine takes a command whose header is `hdr` from the words `ws` after it. A rejected header raises
ILLEGAL_COMMAND and a late SETSTATE or SETLEN64 SEQUENCE_ERROR, each with only the header consumed (R202, R203); with the
payload incomplete the engine waits (R251); otherwise the whole command is consumed and runs as one transaction (R12). -/
def takeCommand (hdr : Word) (ws : List Word) (s : State) : Host.Outcome State Fault Refusal :=
  match decodeHeader hdr with
  | .error _ => .next ((s.consumeTo ws).enterFault .illegalCommand)
  | .ok k =>
    if outOfSequence k s.fresh then .next ((s.consumeTo ws).enterFault .sequenceError)
    else if ws.length < k.payloadWords then .next (s.holdForPayload (hdr :: ws))
    else exec (k.assemble (ws.take k.payloadWords)) (s.consumeTo (ws.drop k.payloadWords))

/-- Between responses: with no word offered the engine is idle and keeps its state (R225, R242). -/
def fetchCommand (s : State) : Host.Outcome State Fault Refusal :=
  match s.stream with
  | [] => .next s
  | hdr :: ws => takeCommand hdr ws s

/-- With the word `w` at the head of the response buffer: the host takes it when it is ready, and until then the engine
waits and takes no header (R56, R250). -/
def offerResponse (w : Word) (rest : List Word) (s : State) : Host.Outcome State Fault Refusal :=
  .next (if s.rspReady then s.deliver w rest else s)

/-- One step of a running engine: first its untaken responses, then the next command (R250). -/
def runEngine (s : State) : Host.Outcome State Fault Refusal :=
  match s.rspBuf with
  | w :: rest => offerResponse w rest s
  | [] => fetchCommand s

/-- The state with a command's words at the head of the channel and the engine ready to take them: no reset, no fault, no
command in progress, no untaken response. -/
def State.readyWith (s : State) (ws : List Word) : State :=
  { s with rst := false, fault := false, cause := .none, taken := [], rspBuf := [], cmd := ws ++ s.cmd }

end Sys2Proof.Machine
end

