-- ==== Sys2Proof/Machine/Step.lean ====
section
/-! DEFINITION. One step of the engine. The reset input comes before everything (spec R211, R241); a faulted engine has no
enabled step (R204); then responses, then commands. -/

namespace Sys2Proof.Machine

/-- One step. -/
def step (s : State) : Host.Outcome State Fault Refusal :=
  if s.rst then .next s.resetInput
  else if s.fault then .fault (.halted s.cause)
  else runEngine s

/-- The host offers the words of an opcode-table row next, and the engine is ready to take them (log entry 7). -/
def State.withFetchWord (s : State) (nbits w : Nat) : State := s.readyWith (tableWords nbits w)

end Sys2Proof.Machine
end

