-- ==== Sys2Proof/Machine/Flags.lean ====
section
/-! DEFINITION. The engine has no arithmetic flags (spec R43). Its only status bits are those of STATUS (R28), a
read-only register on the status output, and the FRESH bit that SETSTATE and SETLEN64 read (R27). -/

namespace Sys2Proof.Machine

/-- The 3-bit CAUSE code (R201). -/
def Cause.code : Cause → BitVec 3
  | .none => 0
  | .illegalCommand => 1
  | .sequenceError => 2
  | .padAssert => 3

/-- STATUS (R28): FAULT in bit 0, CAUSE in bits 3:1, FRESH mirrored in bit 4, bits 31:5 read 0 (R31). It is shown on the
status output at all times, faulted or not (R57). -/
def State.status (s : State) : Word :=
  (0 : BitVec 27) ++ BitVec.ofBool s.fresh ++ s.cause.code ++ BitVec.ofBool s.fault

end Sys2Proof.Machine
end

