-- ==== Sys2Proof/Machine/HostPort.lean ====
section
/-! DEFINITION. What the host can do to the engine (spec R15, R55, R56, R58), and the system of the two: host actions may
fall between any two steps of the engine, and so also while a command waits for its payload or its responses wait to be
taken (R241, R250, R251). -/

namespace Sys2Proof.Machine

/-- One action of the host on the engine's inputs. There is no withdrawal of a word once offered: the spec does not say
whether a host may stop offering an untaken word, and in the model such a word stays first on the channel, across a reset
too (DESIGN CHOICE, log entry 14). -/
inductive HostAction where
  /-- Offer one more word on the command channel (R55). -/
  | offer (w : Word)
  /-- Drive `rsp_ready` (R56). -/
  | setRspReady (ready : Bool)
  /-- Drive the reset input (R58); a power loss is an assertion of it on power return (R225). -/
  | setRst (asserted : Bool)
  deriving DecidableEq, Repr

/-- The state after a host action: only the interface's outside changes. Driving `rst` changes the level of the input alone;
the next engine step acts on it. So an assertion that the host releases before any engine step is lost: FAULT, the
registers and the command in progress stay. The spec gives the assertion no minimum length (DESIGN CHOICE, log entry
17). -/
def State.host (s : State) : HostAction → State
  | .offer w => { s with cmd := s.cmd ++ [w] }
  | .setRspReady ready => { s with rspReady := ready }
  | .setRst asserted => { s with rst := asserted }

/-- One event of the system: the host acts, or the engine steps. -/
inductive Event where
  | host (a : HostAction)
  | engine
  deriving DecidableEq, Repr

/-- One event. -/
def systemStep (s : State) : Event → Host.Outcome State Fault Refusal
  | .host a => .next (s.host a)
  | .engine => step s

/-- A schedule of events; the run ends at the first step that is not enabled. -/
def systemRun : List Event → State → Host.Outcome State Fault Refusal
  | [], s => .next s
  | e :: es, s =>
    match systemStep s e with
    | .next t => systemRun es t
    | .fault r => .fault r
    | .refused r => .refused r

end Sys2Proof.Machine
end

