-- ==== Sys2Proof/Machine/Pseudo.lean ====
section
/-! DEFINITION. The pseudo-commands of the assembler: SUM, the one-shot composition (spec R81), and SUMIS, the resume
composition (R82). They are lists of commands, not commands. -/

namespace Sys2Proof.Machine

/-- The ABSORBs that carry data left over after the first one, at most 16,777,215 bytes each, at most `fuel` of them
(R81). -/
def furtherAbsorbs : Nat → List Byte → List Instr
  | 0, _ => []
  | fuel + 1, d =>
    if d = [] then []
    else .absorb (d.take Config.maxAbsorbLen) :: furtherAbsorbs fuel (d.drop Config.maxAbsorbLen)

/-- `ABSORB d`, split when `d` is longer than one ABSORB may carry (R81). -/
def absorbCommands (d : List Byte) : List Instr :=
  .absorb (d.take Config.maxAbsorbLen) ::
    furtherAbsorbs (d.length / Config.maxAbsorbLen) (d.drop Config.maxAbsorbLen)

/-- `SUM d` (R81). -/
def sumCommands (d : List Byte) : List Instr := .reset :: absorbCommands d ++ [.finalize]

/-- `SUMIS d, h0, ..., h4` (R82). -/
def sumisCommands (d : List Byte) (x : Accum) : List Instr :=
  .reset :: .setstate x.h0 x.h1 x.h2 x.h3 x.h4 :: .setlen64 :: absorbCommands d ++ [.finalize]

end Sys2Proof.Machine
end

