-- ==== Sys2Proof/Safety.lean ====
section
/-! DEFINITION. The terms claims are made in: the invariant of the reachable states (spec R28, R30, R37 to R40, R152),
which states no observation can tell apart (R26, R32 to R36), and SHA-1 as a function of the whole message, written from
R144, R149 and R173 without the engine's buffer. -/

namespace Sys2Proof.Machine

/-! ### Streams and blocks -/

/-- The valid bytes BUF[0..BUFLEN-1], in input order (R23). -/
def StateSet.validBytes (S : StateSet) : List Byte := S.buf.toList.take S.bufLen.val

/-- The stream an ABSORB of `data` makes: `BUF[0..b-1] ++ data` (R125). -/
def StateSet.streamWith (S : StateSet) (data : List Byte) : List Byte := S.validBytes ++ data

/-- The first `n` 64-byte pieces of a byte string, in order. -/
def takeBlocks : Nat → List Byte → List (List Byte)
  | 0, _ => []
  | n + 1, d => d.take 64 :: takeBlocks n (d.drop 64)

/-- Every complete 64-byte chunk of a byte string, in order (R127). -/
def fullBlocks (d : List Byte) : List (List Byte) := takeBlocks (d.length / 64) d

/-- The bytes after the last complete chunk. -/
def lastBytes (d : List Byte) : List Byte := d.drop (64 * (d.length / 64))

/-- COMPRESS of each block in turn, each from the accumulator the one before it left (R173). -/
def compressBlocks (x : Accum) (blocks : List (List Byte)) : Accum := blocks.foldl compressBlock x

/-! ### SHA-1 of a whole message -/

/-- The 64-bit length suffix counts bits modulo 2^64 (R142). -/
def lengthSuffix (byteCount : Nat) : List Byte := be64bytes (BitVec.ofNat 64 (8 * byteCount))

/-- The padding and length suffix that follow a message of `byteCount` bytes: one 0x80 byte, zero bytes up to 56 modulo
64, and the suffix (R144, R145). -/
def messagePadding (byteCount : Nat) : List Byte :=
  0x80 :: List.replicate ((119 - byteCount % 64) % 64) 0 ++ lengthSuffix byteCount

/-- The digest words of a message continued from accumulator `x`, `before` bytes counted as already processed (R149). -/
def sha1From (x : Accum) (before : Nat) (d : List Byte) : Accum :=
  compressBlocks x (fullBlocks (d ++ messagePadding (before + d.length)))

/-- SHA-1 of a message, as five words (R1, R149). -/
def sha1 (d : List Byte) : Accum := sha1From iv 0 d

/-! ### The invariant -/

/-- The words of a command in progress are a legal header, in sequence, and fewer payload words than it announces
(R251). -/
def awaitsPayload (fresh : Bool) : List Word → Bool
  | [] => false
  | hdr :: got =>
    match decodeHeader hdr with
    | .error _ => false
    | .ok k => decide (got.length < k.payloadWords) && !outOfSequence k fresh

/-- What holds in every reachable state. -/
structure EngineInv (s : State) : Prop where
  /-- TOTALLEN mod 64 = BUFLEN (R39). -/
  total_mod : s.live.totalLen.toNat % 64 = s.live.bufLen.val
  /-- FRESH = 1 implies BUFLEN = 0 and TOTALLEN ∈ {0, 64} (R40). -/
  fresh_empty : s.fresh = true → s.live.bufLen = 0 ∧ (s.live.totalLen = 0 ∨ s.live.totalLen = 64)
  /-- CAUSE is 0 exactly while FAULT = 0 (R28). -/
  cause_iff : s.cause = .none ↔ s.fault = false
  /-- PAD_ASSERT is unreachable (R152). -/
  no_pad_assert : s.cause ≠ .padAssert
  /-- The response buffer holds at most five words (R37). -/
  rsp_bound : s.rspBuf.length ≤ 5
  /-- A faulted engine offers no response (R204). -/
  fault_quiet : s.fault = true → s.rspBuf = []
  /-- A command is in progress only on a running engine that has no response left to give (R250). -/
  taken_idle : s.taken ≠ [] → s.fault = false ∧ s.rspBuf = []
  /-- A command in progress waits for its payload (R251). -/
  taken_waits : s.taken ≠ [] → awaitsPayload s.fresh s.taken = true

/-- The engine can take a header now: running, no reset, no command in progress, no response untaken (R250). -/
def State.idle (s : State) : Prop :=
  s.rst = false ∧ s.fault = false ∧ s.taken = [] ∧ s.rspBuf = []

/-! ### Observation -/

/-- Two state sets that differ in stale BUF bytes only (R26). -/
def SameValid (S T : StateSet) : Prop :=
  S.h = T.h ∧ S.bufLen = T.bufLen ∧ S.totalLen = T.totalLen ∧ S.validBytes = T.validBytes

/-- Two states that differ only in what no observation reads: stale BUF bytes (R26), the finalize copy (R33) and the hidden
registers of COMPRESS (R34, R35, R36). -/
structure SameVisible (s t : State) : Prop where
  live : SameValid s.live t.live
  fresh : s.fresh = t.fresh
  fault : s.fault = t.fault
  cause : s.cause = t.cause
  taken : s.taken = t.taken
  rspBuf : s.rspBuf = t.rspBuf
  cmd : s.cmd = t.cmd
  rspReady : s.rspReady = t.rspReady
  rst : s.rst = t.rst
  rspOut : s.rspOut = t.rspOut

/-- Two outcomes of which no observation can tell one from the other. -/
def SameOutcome : Host.Outcome State Fault Refusal → Host.Outcome State Fault Refusal → Prop
  | .next s, .next t => SameVisible s t
  | .fault a, .fault b => a = b
  | .refused a, .refused b => a = b
  | _, _ => False

/-! ### Headers, as numbers -/

/-- OPC of a header word, `hdr[7:0]` (R70). -/
def opcOf (hdr : Word) : Nat := hdr.toNat % 256

/-- ARG of a header word, `hdr[31:8]` (R70). -/
def argOf (hdr : Word) : Nat := hdr.toNat / 256

/-- Message byte k of payload words: word `k / 4`, bits `[31 - 8*(k mod 4) : 24 - 8*(k mod 4)]` (R54). -/
def laneByte (ws : List Word) (k : Nat) : Byte := (ws.getD (k / 4) 0).extractLsb' (24 - 8 * (k % 4)) 8

/-- The cause of the first check that fails, in the order of R210, and `none` when no check fails. The last check is of
the copy at the end of FINALIZE, which is full exactly when BUFLEN = TOTALLEN mod 64 (R152). -/
def firstFailedCheck (hdr : Word) (s : State) : Cause :=
  if opcOf hdr = 0 ∨ 6 ≤ opcOf hdr then .illegalCommand
  else if opcOf hdr ≠ 3 ∧ argOf hdr ≠ 0 then .illegalCommand
  else if (opcOf hdr = 2 ∨ opcOf hdr = 5) ∧ s.fresh = false then .sequenceError
  else if opcOf hdr = 4 ∧ s.live.bufLen.val ≠ s.live.totalLen.toNat % 64 then .padAssert
  else .none

/-- The engine rejects every header of this opcode whose ARG is not 0: ILLEGAL_COMMAND, the header word consumed, every
other piece of state unchanged (R76, R77). -/
def RejectsNonzeroArg (opc : Nat) : Prop :=
  ∀ (s : State) (hdr : Word) (ws : List Word), s.idle → s.cmd = hdr :: ws → opcOf hdr = opc → argOf hdr ≠ 0 →
    step s = .next { s with cmd := ws, fault := true, cause := .illegalCommand }

/-! ### Commands in sequence -/

/-- The effects of a list of commands, in order (R64). -/
def execAll : List Instr → State → Host.Outcome State Fault Refusal
  | [], s => .next s
  | i :: is, s =>
    match exec i s with
    | .next t => execAll is t
    | .fault r => .fault r
    | .refused r => .refused r

end Sys2Proof.Machine
end

