-- ==== Sys2Proof/Certificates/Slice0/Obligations.lean ====
section
/-! DEFINITION. The statements for the provers. Each docstring names the rule of the spec it formalises; where a statement
rests on a choice of the model, it says so. -/

open Sys2Proof Sys2Proof.Machine

/-! ### Encoding -/

/-- The words of every command, the packing of an ABSORB's bytes (R54), and that decoding gives the command back. The
last is the spec's own inference: "Decoding `enc(c)` by rule R73 gives back c" (R84). -/
def Obligations.DecodeOfEncodeIsTheCommand : Prop :=
  encode .reset = [0x00000001] ∧
  (∀ p0 p1 p2 p3 p4, encode (.setstate p0 p1 p2 p3 p4) = [0x00000002, p0, p1, p2, p3, p4]) ∧
  (∀ d : List Byte, d.length ≤ 16777215 →
    encode (.absorb d) = (BitVec.ofNat 32 d.length <<< 8 ||| 0x03) :: packWords d ∧
    (packWords d).length = (d.length + 3) / 4 ∧
    ∀ k < 4 * (packWords d).length, laneByte (packWords d) k = d.getD k 0) ∧
  encode .finalize = [0x00000004] ∧
  encode .setlen64 = [0x00000005] ∧
  ∀ (i : Instr) (rest : List Word), i.wellFormed = true → decode (encode i ++ rest) = .ok (i, rest)

/-- R54, R60: an ABSORB's bytes are read lane by lane, and whatever the lanes beyond LEN hold, the command is the
same. -/
def Obligations.AbsorbPayloadReadLaneByLane : Prop :=
  ∀ (d : List Byte) (ws rest : List Word), d.length ≤ 16777215 → ws.length = (d.length + 3) / 4 →
    (∀ k, (h : k < d.length) → laneByte ws k = d[k]) →
    decode ((BitVec.ofNat 32 d.length <<< 8 ||| 0x03) :: ws ++ rest) = .ok (.absorb d, rest)

/-- R72, R73, R76, R77 for every header word. That each word has exactly one outcome is the spec's own inference:
"Decoding is total" (R79). -/
def Obligations.EveryHeaderHasOneOutcome : Prop :=
  ∀ hdr : Word,
    (decodeHeader hdr = .ok .reset ↔ hdr = 1) ∧
    (decodeHeader hdr = .ok .setstate ↔ hdr = 2) ∧
    (∀ n, decodeHeader hdr = .ok (.absorb n) ↔ opcOf hdr = 3 ∧ argOf hdr = n) ∧
    (decodeHeader hdr = .ok .finalize ↔ hdr = 4) ∧
    (decodeHeader hdr = .ok .setlen64 ↔ hdr = 5) ∧
    ((∃ e, decodeHeader hdr = .error e) ↔
      opcOf hdr = 0 ∨ 6 ≤ opcOf hdr ∨ (opcOf hdr ≠ 3 ∧ argOf hdr ≠ 0))

/-- R71, R73: a decoded command is well formed, it took exactly the words its header announces, and the rest of the
stream is left as it was. That the header alone tells the length is the spec's own inference (R74). -/
def Obligations.DecodedCommandLengthIsToldByItsHeader : Prop :=
  ∀ (ws rest : List Word) (i : Instr), decode ws = .ok (i, rest) →
    i.wellFormed = true ∧
    ∃ hdr payload, ws = hdr :: payload ++ rest ∧ decodeHeader hdr = .ok i.header ∧
      payload.length = match i with
        | .setstate _ _ _ _ _ => 5
        | .absorb d => (d.length + 3) / 4
        | .reset => 0
        | .finalize => 0
        | .setlen64 => 0

/-- The words of the spec's encoding table (section 2.1 of the test vectors) decode as it says. -/
def Obligations.TableWordsDecodeAsListed : Prop :=
  decode [0x00000001] = .ok (.reset, []) ∧
  decode [0x00000002, 0x01234567, 0x89ABCDEF, 0xFEDCBA98, 0x76543210, 0xF0E1D2C3]
    = .ok (.setstate 0x01234567 0x89ABCDEF 0xFEDCBA98 0x76543210 0xF0E1D2C3, []) ∧
  decode [0x00000003] = .ok (.absorb [], []) ∧
  decode [0x00000303, 0x61626300] = .ok (.absorb [0x61, 0x62, 0x63], []) ∧
  decode [0x00000004] = .ok (.finalize, []) ∧
  decode [0x00000005] = .ok (.setlen64, []) ∧
  decode [0x00000006] = .error .reservedOpcode ∧
  decode [0x80000004] = .error .reservedArg

/-! ### The step -/

/-- R12, R73: when the words at the front of the channel decode to a command, one step is its effect, with the command's
words consumed; a SETSTATE or SETLEN64 that comes too late has only its header consumed (R203). That a whole command is
one step is the model's grain, and so is what happens in a state no run reaches, in which payload words of a late SETSTATE
are already taken: they go back on the channel (log entry 8). -/
def Obligations.StepRunsTheDecodedCommand : Prop :=
  ∀ (s : State) (i : Instr) (rest : List Word), s.rst = false → s.fault = false → s.rspBuf = [] →
    decode s.stream = .ok (i, rest) →
    step s = exec i (s.consumeTo (if outOfSequence i.header s.fresh then s.stream.tail else rest))

/-- R76: a reserved opcode faults whatever its ARG, with the header word consumed and every other piece of state
unchanged. -/
def Obligations.ReservedOpcodeRaisesIllegalCommand : Prop :=
  ∀ (s : State) (hdr : Word) (ws : List Word), s.idle → s.cmd = hdr :: ws → (opcOf hdr = 0 ∨ 6 ≤ opcOf hdr) →
    step s = .next { s with cmd := ws, fault := true, cause := .illegalCommand }

/-- R77: a nonzero ARG faults for every opcode but ABSORB, for which every ARG is legal. -/
def Obligations.ReservedArgRaisesIllegalCommand : Prop :=
  (∀ opc, opc = 1 ∨ opc = 2 ∨ opc = 4 ∨ opc = 5 → RejectsNonzeroArg opc) ∧
  ∀ hdr : Word, opcOf hdr = 3 → decodeHeader hdr = .ok (.absorb (argOf hdr))

/-- R203: a late SETSTATE or SETLEN64 faults with its payload unread, and the faulted engine never takes it. That the engine
has no enabled step (R204) is given as a fault outcome of the next step (log entry 3). -/
def Obligations.LateCommandLeavesItsPayloadUntaken : Prop :=
  ∀ (s : State) (hdr : Word) (ws : List Word), s.idle → s.fresh = false → s.cmd = hdr :: ws → (hdr = 2 ∨ hdr = 5) →
    ∃ t, step s = .next t ∧ t = { s with cmd := ws, fault := true, cause := .sequenceError } ∧
      step t = .fault (.halted .sequenceError)

/-- R210: the first check that fails is the cause reported, and with no failing check there is no fault. The fourth check
is R210's CBUFLEN ≠ 0 at the end of FINALIZE, given here in the form of the spec's inference R152: BUFLEN is not TOTALLEN
mod 64. -/
def Obligations.FirstFailedCheckIsTheCauseReported : Prop :=
  ∀ (s : State) (hdr : Word) (ws : List Word), s.idle → s.cause = .none → s.cmd = hdr :: ws →
    ∃ t, step s = .next t ∧ t.cause = firstFailedCheck hdr s ∧
      (t.fault = true ↔ firstFailedCheck hdr s ≠ .none)

/-- R204: what entering the fault state does, whichever command raised it. The last clause is the rule's "the engine then
has no enabled step", which the model gives as a fault outcome of the next step (log entry 3). The host actions are the model's (log entry
14). -/
def Obligations.FaultEntryWritesOnlyStatus : Prop :=
  ∀ s t : State, s.fault = false → step s = .next t → t.fault = true →
    (t.cause = .illegalCommand ∨ t.cause = .sequenceError ∨ t.cause = .padAssert) ∧
    t.status.getLsbD 0 = true ∧ t.status.extractLsb' 1 3 = t.cause.code ∧
    t.live = s.live ∧ t.fresh = s.fresh ∧ t.rspBuf = [] ∧ t.rspOut = s.rspOut ∧
    (∀ a : HostAction, (t.host a).cmdReady = false) ∧ t.cmdReady = false ∧
    step t = .fault (.halted t.cause)

/-- R29: once set, FAULT stays until the reset input: whatever the host does short of asserting it, the engine has no
step and keeps everything. A step of the faulted engine is a fault outcome of the run (log entry 3), so the first clause is
about schedules in which only the host acts, and the second about all others. The host actions are the model's (log entry
14). -/
def Obligations.FaultStaysUntilTheResetInput : Prop :=
  ∀ (es : List Event) (s : State), s.fault = true → s.rst = false → Event.host (.setRst true) ∉ es →
    (∀ t, systemRun es s = .next t → t.fault = true ∧ t.cause = s.cause ∧ t.live = s.live ∧ t.fresh = s.fresh) ∧
    (Event.engine ∈ es → systemRun es s = .fault (.halted s.cause))

/-- R28: FAULT and CAUSE change only on a fault and at hardware reset. -/
def Obligations.FaultAndCauseChangeOnlyOnFaultOrReset : Prop :=
  ∀ s t : State, step s = .next t →
    (t.fault = s.fault ∧ t.cause = s.cause) ∨
    (s.rst = true ∧ t.fault = false ∧ t.cause = .none) ∨
    (s.fault = false ∧ t.fault = true ∧ t.cause ≠ .none)

/-- R28, R31, R201: the fields of STATUS. -/
def Obligations.StatusShowsFaultCauseAndFresh : Prop :=
  ∀ s : State,
    s.status.getLsbD 0 = s.fault ∧
    s.status.extractLsb' 1 3 = s.cause.code ∧
    s.status.getLsbD 4 = s.fresh ∧
    s.status.extractLsb' 5 27 = 0 ∧
    Cause.code .none = 0 ∧ Cause.code .illegalCommand = 1 ∧ Cause.code .sequenceError = 2 ∧
    Cause.code .padAssert = 3

/-- R250: while a response word is untaken the engine takes no header; it waits for the host, and gives the words one by
one in order. That waiting is a step to the same state is log entry 4, that a step gives one word is log entry 8, and the
record of the words given is log entry 10. -/
def Obligations.ResponsesComeBeforeTheNextHeader : Prop :=
  ∀ (s : State) (w : Word) (rest : List Word), s.rst = false → s.fault = false → s.rspBuf = w :: rest →
    s.cmdReady = false ∧
    (s.rspReady = false → step s = .next s) ∧
    (s.rspReady = true → step s = .next { s with rspBuf := rest, rspOut := s.rspOut ++ [w] })

/-- R251: a command whose payload words have not all arrived waits and has written no live state. That the wait is a step,
and that it takes all the words offered, is the model's (log entries 4 and 8). -/
def Obligations.IncompletePayloadHolds : Prop :=
  ∀ (s : State) (hdr : Word) (ws : List Word), s.rst = false → s.fault = false → s.rspBuf = [] →
    s.stream = hdr :: ws →
    (opcOf hdr = 2 ∧ argOf hdr = 0 ∧ s.fresh = true ∧ ws.length < 5 ∨
     opcOf hdr = 3 ∧ ws.length < (argOf hdr + 3) / 4) →
    step s = .next { s with taken := hdr :: ws, cmd := [] }

/-- The model's reading of R12 with R251 (log entry 8): it makes no difference in how many pieces a command's words arrive: once they are all there, the step is
the one that would have run had they all been offered at once. -/
def Obligations.PayloadArrivingInPiecesRunsTheSameCommand : Prop :=
  ∀ (s : State) (first second rest : List Word) (i : Instr), s.idle →
    decode (first ++ second) = .ok (i, rest) → decode first = .error .payloadMissing →
    outOfSequence i.header s.fresh = false →
    ∃ held, step { s with cmd := first } = .next held ∧
      held.live = s.live ∧
      step { held with cmd := held.cmd ++ second } = step { s with cmd := first ++ second }

/-- With no word offered the engine is idle and keeps all its state (R225, R242); that this is a step to the same state is
the model's choice (log entry 4). -/
def Obligations.IdleEngineKeepsItsState : Prop :=
  ∀ s : State, s.idle → s.cmd = [] → step s = .next s ∧ s.cmdReady = true

/-- Once its words are offered and the host takes the responses, a command completes (R243), with exactly the effect of
the command and its response words given to the host in order. The count of six steps is the model's, one for the command
and one for each response word (log entry 8); the record of the words given is the model's own (log entry 10). -/
def Obligations.AcceptedCommandCompletes : Prop :=
  ∀ (s : State) (i : Instr) (rest : List Word), EngineInv s → s.idle → s.rspReady = true →
    decode s.cmd = .ok (i, rest) → outOfSequence i.header s.fresh = false →
    ∃ n t u, n ≤ 6 ∧ systemRun (List.replicate n .engine) s = .next t ∧ t.idle ∧ t.cmd = rest ∧
      exec i (s.consumeTo rest) = .next u ∧ t.live = u.live ∧ t.fresh = u.fresh ∧
      t.rspOut = s.rspOut ++ u.rspBuf ∧ (i ≠ .finalize → u.rspBuf = []) ∧ (i = .finalize → u.rspBuf.length = 5)

/-! ### Reset -/

/-- R44: the values after reset. BUF and the hidden registers, which the spec leaves unspecified, are not stated. -/
def Obligations.ResetStateHasTheListedValues : Prop :=
  State.reset.live.h =
    { h0 := 0x67452301, h1 := 0xEFCDAB89, h2 := 0x98BADCFE, h3 := 0x10325476, h4 := 0xC3D2E1F0 } ∧
  State.reset.live.bufLen = 0 ∧ State.reset.live.totalLen = 0 ∧ State.reset.fresh = true ∧
  State.reset.fault = false ∧ State.reset.cause = .none ∧ State.reset.status = 0x00000010 ∧
  State.reset.rspBuf = [] ∧ State.reset.taken = []

/-- R211, with the values of R240: the reset input, in any state, faulted or in the middle of a command,
gives the reset values, and wins over everything else. That the host's side of the interfaces stays (the last four clauses)
is the model's (log entries 6 and 10). -/
def Obligations.ResetInputGivesTheResetValues : Prop :=
  ∀ s : State, s.rst = true → ∃ t, step s = .next t ∧
    t.live.h = iv ∧ t.live.bufLen = 0 ∧ t.live.totalLen = 0 ∧ t.fresh = true ∧ t.fault = false ∧ t.cause = .none ∧
    t.rspBuf = [] ∧ t.taken = [] ∧
    t.cmd = s.cmd ∧ t.rspReady = s.rspReady ∧ t.rst = s.rst ∧ t.rspOut = s.rspOut

/-- R241: a reset during a command abandons it: nothing of it survives, no response of it is offered, and the next word on
the channel is taken as a header. That the words already offered are still that channel is the model's (log entries 6 and
14), and so are the record of the words given (log entry 10) and that the assertion lasts until an engine step (log entry
17). -/
def Obligations.ResetDuringACommandAbandonsIt : Prop :=
  ∀ (s : State) (hdr : Word) (ws : List Word), s.cmd = hdr :: ws →
    ∃ t, systemRun [.host (.setRst true), .engine, .host (.setRst false)] s = .next t ∧
      t.live.h = iv ∧ t.live.bufLen = 0 ∧ t.live.totalLen = 0 ∧ t.fresh = true ∧ t.idle ∧
      t.rspOut = s.rspOut ∧ t.cmd = hdr :: ws ∧ step t = takeCommand hdr ws t

/-- In every non-faulted state between commands the RESET command (R100) and the reset input (R240) give the same
observable state: the spec's own inference (R244). That the reset input leaves the host's side of the interfaces is the
model's (log entry 6). -/
def Obligations.ResetCommandAndResetInputAgree : Prop :=
  ∀ s : State, s.idle → s.cause = .none →
    ∃ t, exec .reset s = .next t ∧ SameVisible t s.resetInput ∧ step { s with rst := true } =
      .next { s.resetInput with rst := true }

/-! ### The commands -/

/-- R100: the word of RESET, what it writes, that it writes nothing else and gives the same result whatever the registers
held, that two in a row equal one, that a nonzero ARG faults, and that it does not clear a fault: a step of the faulted engine is
a fault outcome (log entry 3). -/
def Obligations.ResetCommandResult : Prop :=
  encode .reset = [0x00000001] ∧ decodeHeader 0x00000001 = .ok .reset ∧
  (∀ s : State, exec .reset s =
    .next { s with live := { s.live with h := iv, bufLen := 0, totalLen := 0 }, fresh := true }) ∧
  (∀ s : State, execAll [.reset, .reset] s = exec .reset s) ∧
  RejectsNonzeroArg 1 ∧
  ∀ (s : State) (ws : List Word), s.rst = false → s.fault = true → s.cmd = 0x00000001 :: ws →
    step s = .fault (.halted s.cause)

/-- R101: SETSTATE writes H and nothing else while FRESH = 1, and faults while FRESH = 0, with its payload unread. -/
def Obligations.SetstateResult : Prop :=
  (∀ (s : State) (p0 p1 p2 p3 p4 : Word), s.fresh = true → exec (.setstate p0 p1 p2 p3 p4) s =
    .next { s with live := { s.live with h := { h0 := p0, h1 := p1, h2 := p2, h3 := p3, h4 := p4 } } }) ∧
  (∀ (s : State) (p0 p1 p2 p3 p4 : Word), s.fresh = false → exec (.setstate p0 p1 p2 p3 p4) s =
    .next { s with fault := true, cause := .sequenceError }) ∧
  (∀ (s : State) (ws : List Word), s.idle → s.fresh = false → s.cmd = 2 :: ws →
    step s = .next { s with cmd := ws, fault := true, cause := .sequenceError }) ∧
  RejectsNonzeroArg 2

/-- R104: SETLEN64 writes 64 to TOTALLEN and nothing else while FRESH = 1, and faults while FRESH = 0. -/
def Obligations.Setlen64Result : Prop :=
  (∀ s : State, s.fresh = true → exec .setlen64 s = .next { s with live := { s.live with totalLen := 64 } }) ∧
  (∀ s : State, s.fresh = false → exec .setlen64 s = .next { s with fault := true, cause := .sequenceError }) ∧
  RejectsNonzeroArg 5

/-- SETSTATE (R101) and then FINALIZE (R141), with no SETLEN64, pads as if the message were empty, chained from the
supplied words: the spec's own inference (R103). That the response joins untaken response words is the model's (log entry
13). -/
def Obligations.SetstateThenFinalizePadsTheEmptyMessage : Prop :=
  ∀ (s : State) (p0 p1 p2 p3 p4 : Word), ∃ t, execAll [.reset, .setstate p0 p1 p2 p3 p4, .finalize] s = .next t ∧
    t.rspBuf = s.rspBuf ++
      (compressBlock { h0 := p0, h1 := p1, h2 := p2, h3 := p3, h4 := p4 } (0x80 :: List.replicate 63 0)).words

/-- What R121 does, in the form of the spec's own inference R125: an ABSORB compresses exactly floor((b + n) / 64) blocks, the consecutive 64-byte pieces of the stream
`BUF[0..b-1] ++ data`; the rest of the stream stays in BUF, TOTALLEN counts the bytes, FRESH is cleared, and nothing else
changes but the hidden registers. The count is R121's, which for n = 16,777,215 and b > 0 is 262,144, against the letter of
R243: the model's choice (log entry 15). -/
def Obligations.AbsorbResult : Prop :=
  ∀ (s : State) (d : List Byte), ∃ t, exec (.absorb d) s = .next t ∧
    (∃ blocks : List (List Byte),
      blocks.length = (s.live.bufLen.val + d.length) / 64 ∧ (∀ b ∈ blocks, b.length = 64) ∧
      s.live.validBytes ++ d = blocks.flatten ++ t.live.validBytes ∧
      t.live.h = compressBlocks s.live.h blocks) ∧
    t.live.bufLen.val = (s.live.bufLen.val + d.length) % 64 ∧
    t.live.totalLen = s.live.totalLen + BitVec.ofNat 64 d.length ∧
    t.fresh = false ∧
    t.fault = s.fault ∧ t.cause = s.cause ∧ t.copy = s.copy ∧ t.taken = s.taken ∧ t.rspBuf = s.rspBuf ∧
    t.cmd = s.cmd ∧ t.rspReady = s.rspReady ∧ t.rst = s.rst ∧ t.rspOut = s.rspOut

/-- R121 at its corners, as the spec infers them in R126. -/
def Obligations.AbsorbCornerCases : Prop :=
  ∀ (s : State) (d : List Byte), ∃ t, exec (.absorb d) s = .next t ∧
    (d = [] → t.live = s.live ∧ t.fresh = false) ∧
    (∀ m, 1 ≤ m → s.live.bufLen = 0 → d.length = 64 * m →
      t.live.h = compressBlocks s.live.h (takeBlocks m d) ∧ t.live.bufLen = 0 ∧ t.live.buf = s.live.buf) ∧
    (s.live.bufLen.val ≠ 0 → d.length = 64 - s.live.bufLen.val →
      t.live.h = compressBlock s.live.h (s.live.validBytes ++ d) ∧ t.live.bufLen = 0) ∧
    (s.live.bufLen.val ≠ 0 → d.length < 64 - s.live.bufLen.val →
      t.live.h = s.live.h ∧ t.live.bufLen.val = s.live.bufLen.val + d.length) ∧
    (s.live.bufLen = 0 → d.length = 16777215 →
      t.live.h = compressBlocks s.live.h (takeBlocks 262143 (d.take 16777152)) ∧
      t.live.bufLen.val = 63 ∧ t.live.validBytes = d.drop 16777152) ∧
    t.live.totalLen.toNat = (s.live.totalLen.toNat + d.length) % 2 ^ 64

/-- R122: BUF is written only at the positions the algorithm writes: those of the top-up and those of the tail. -/
def Obligations.AbsorbWritesBufOnlyAtTopUpAndTail : Prop :=
  ∀ (s : State) (d : List Byte), ∃ t, exec (.absorb d) s = .next t ∧
    ∀ i, (hi : i < 64) →
      ¬ (s.live.bufLen.val ≠ 0 ∧ s.live.bufLen.val ≤ i ∧ i < s.live.bufLen.val + d.length) →
      ¬ ((s.live.bufLen.val = 0 ∨ 64 ≤ s.live.bufLen.val + d.length) ∧ i < (s.live.bufLen.val + d.length) % 64) →
      t.live.buf[i] = s.live.buf[i]

/-- Absorbing `d1` and then `d2` leaves the same visible state as absorbing `d1 ++ d2`: the spec's inference from R121,
its split equivalence (R128). -/
def Obligations.AbsorbSplitEquivalence : Prop :=
  ∀ (s : State) (d1 d2 : List Byte), ∃ t u, execAll [.absorb d1, .absorb d2] s = .next t ∧
    exec (.absorb (d1 ++ d2)) s = .next u ∧ SameVisible t u

/-- The spec's inference R129, byte-serial equivalence: absorbing bytes one per command leaves the same registers as absorbing them at once, and the same visible state
when there is at least one byte (with no byte there is no command, and FRESH is not cleared). -/
def Obligations.AbsorbByteSerialEquivalence : Prop :=
  ∀ (s : State) (d : List Byte), ∃ t u, execAll (d.map fun b => .absorb [b]) s = .next t ∧
    exec (.absorb d) s = .next u ∧ SameValid t.live u.live ∧ (d ≠ [] → SameVisible t u)

/-- What R141 to R147 do, in the form of the spec's own inference R149: FINALIZE is a pure function of the live state. Its
response, which joins whatever response words are untaken (log entry 13; a run has none then), is the accumulator over
the padded message of one block when r < 56 and two otherwise; it changes nothing but the finalize copy, the hidden
registers and the response buffer, and repeated it gives the same words. -/
def Obligations.FinalizeIsAPureFunctionOfTheLiveState : Prop :=
  ∀ s : State, s.live.totalLen.toNat % 64 = s.live.bufLen.val →
    let r := s.live.totalLen.toNat % 64
    let P := if r < 56 then 56 - r else 120 - r
    let m := s.live.validBytes ++ [0x80] ++ List.replicate (P - 1) 0 ++ be64bytes (s.live.totalLen * 8)
    let digest := compressBlocks s.live.h (takeBlocks (m.length / 64) m)
    m.length = (if r < 56 then 64 else 128) ∧
    ∃ t, exec .finalize s = .next t ∧
      t.rspBuf = s.rspBuf ++ [digest.h0, digest.h1, digest.h2, digest.h3, digest.h4] ∧
      t.live = s.live ∧ t.fresh = s.fresh ∧ t.fault = s.fault ∧ t.cause = s.cause ∧ t.taken = s.taken ∧
      t.cmd = s.cmd ∧ t.rspReady = s.rspReady ∧ t.rst = s.rst ∧ t.rspOut = s.rspOut ∧
      ∃ u, exec .finalize t = .next u ∧ u.live = s.live ∧
        u.rspBuf = t.rspBuf ++ [digest.h0, digest.h1, digest.h2, digest.h3, digest.h4]

/-- R146, R143: FINALIZE raises PAD_ASSERT exactly in the states where BUFLEN is not TOTALLEN mod 64 (no reachable state
is one, by the spec's inference R152), and then writes no
response and leaves the live state as it was. -/
def Obligations.PadAssertExactlyWhenLengthsDisagree : Prop :=
  ∀ s : State, s.fault = false → ∃ t, exec .finalize s = .next t ∧
    (t.fault = true ↔ s.live.bufLen.val ≠ s.live.totalLen.toNat % 64) ∧
    (t.fault = true → t.cause = .padAssert ∧ t.rspBuf = s.rspBuf) ∧
    t.live = s.live ∧ t.fresh = s.fresh ∧ t.taken = s.taken ∧ t.cmd = s.cmd ∧ t.rspReady = s.rspReady ∧
    t.rst = s.rst ∧ t.rspOut = s.rspOut

/-- R144: the padding bytes and their number. -/
def Obligations.PaddingReachesFiftySix : Prop :=
  ∀ totalLen : DWord,
    let r := totalLen.toNat % 64
    let P := (padding totalLen).length
    (r < 56 → P = 56 - r ∧ 1 ≤ P ∧ P ≤ 56) ∧ (56 ≤ r → P = 120 - r ∧ 57 ≤ P ∧ P ≤ 64) ∧
    padding totalLen = 0x80 :: List.replicate (P - 1) 0 ∧ (r + P) % 64 = 56

/-- R142: bitLen is TOTALLEN[60:0] followed by three 0 bits, and is suffixed most significant byte first (R52, R145). -/
def Obligations.BitLengthSuffix : Prop :=
  ∀ totalLen : DWord,
    (bitLen totalLen).toNat = totalLen.toNat * 8 % 2 ^ 64 ∧
    bitLen totalLen = totalLen.extractLsb' 0 61 ++ (0 : BitVec 3) ∧
    (be64bytes (bitLen totalLen)).length = 8 ∧
    ∀ i < 8, (be64bytes (bitLen totalLen)).getD i 0 = (bitLen totalLen).extractLsb' (56 - 8 * i) 8

/-- R53, R147: byte 4i + j of the digest is bits `[31 - 8j : 24 - 8j]` of response word i. -/
def Obligations.DigestBytesAreBigEndian : Prop :=
  ∀ (x : Accum) (i j : Nat), i < 5 → j < 4 →
    (x.words.flatMap be32bytes).length = 20 ∧
    (x.words.flatMap be32bytes).getD (4 * i + j) 0 = (x.words.getD i 0).extractLsb' (24 - 8 * j) 8

/-! ### The block transform -/

/-- R161, R162: the message schedule. -/
def Obligations.ScheduleWords : Prop :=
  ∀ blk : List Byte, blk.length = 64 →
    (schedule blk).length = 80 ∧
    (∀ t < 16, (schedule blk).getD t 0 =
      be32 (blk.getD (4 * t) 0) (blk.getD (4 * t + 1) 0) (blk.getD (4 * t + 2) 0) (blk.getD (4 * t + 3) 0)) ∧
    ∀ t, 16 ≤ t → t < 80 → (schedule blk).getD t 0 =
      rotl32 ((schedule blk).getD (t - 3) 0 ^^^ (schedule blk).getD (t - 8) 0 ^^^ (schedule blk).getD (t - 14) 0 ^^^
        (schedule blk).getD (t - 16) 0) 1

/-- R168: the round constants. -/
def Obligations.RoundConstants : Prop :=
  ∀ t : Nat,
    (t ≤ 19 → roundConst t = 0x5A827999) ∧ (20 ≤ t → t ≤ 39 → roundConst t = 0x6ED9EBA1) ∧
    (40 ≤ t → t ≤ 59 → roundConst t = 0x8F1BBCDC) ∧ (60 ≤ t → t ≤ 79 → roundConst t = 0xCA62C1D6)

/-- The four round functions, bit by bit: choice, parity, majority, parity. The spec supplies them from general knowledge
(R163 to R166) and allows any bitwise-equal form (R167). -/
def Obligations.RoundFunctionsBitByBit : Prop :=
  ∀ (t : Nat) (b c d : Word) (i : Nat), i < 32 →
    (t ≤ 19 → (roundFun t b c d).getLsbD i = if b.getLsbD i then c.getLsbD i else d.getLsbD i) ∧
    (20 ≤ t → t ≤ 39 → (roundFun t b c d).getLsbD i = ((b.getLsbD i != c.getLsbD i) != d.getLsbD i)) ∧
    (40 ≤ t → t ≤ 59 → (roundFun t b c d).getLsbD i =
      decide (2 ≤ (b.getLsbD i).toNat + (c.getLsbD i).toNat + (d.getLsbD i).toNat)) ∧
    (60 ≤ t → t ≤ 79 → (roundFun t b c d).getLsbD i = ((b.getLsbD i != c.getLsbD i) != d.getLsbD i))

/-- `rotl32` moves bit i to bit (i + n) mod 32, for 0 < n < 32; the spec supplies the definition from general knowledge
(R9). -/
def Obligations.RotationMovesBits : Prop :=
  ∀ (x : Word) (n i : Nat), 0 < n → n < 32 → i < 32 → (rotl32 x n).getLsbD ((i + n) % 32) = x.getLsbD i

/-- R169 to R172: COMPRESS is the eighty rounds in order on the working registers, from the accumulator, and the
feed-forward. -/
def Obligations.CompressIsEightyRoundsAndFeedForward : Prop :=
  ∀ (x : Accum) (blk : List Byte), blk.length = 64 →
    let W := fun t => (schedule blk).getD t 0
    let round := fun (r : Work) (t : Nat) =>
      let temp := rotl32 r.a 5 + roundFun t r.b r.c r.d + r.e + roundConst t + W t
      ({ a := temp, b := r.a, c := rotl32 r.b 30, d := r.c, e := r.d } : Work)
    let r := (List.range 80).foldl round { a := x.h0, b := x.h1, c := x.h2, d := x.h3, e := x.h4 }
    compressBlock x blk = { h0 := x.h0 + r.a, h1 := x.h1 + r.b, h2 := x.h2 + r.c, h3 := x.h3 + r.d, h4 := x.h4 + r.e }

/-! ### Who writes what -/

/-- R27: the writers of FRESH. -/
def Obligations.FreshHasTheListedWriters : Prop :=
  (∀ (i : Instr) (s : State), ∃ t, exec i s = .next t ∧
    t.fresh = match i with
      | .reset => true
      | .absorb _ => false
      | .setstate _ _ _ _ _ => s.fresh
      | .finalize => s.fresh
      | .setlen64 => s.fresh) ∧
  (∀ s : State, s.rst = true → ∃ t, step s = .next t ∧ t.fresh = true)

/-- R20, R23, R24, R25: a step changes a live register only by the reset input or by a command the spec lists as its
writer. -/
def Obligations.LiveRegistersHaveTheListedWriters : Prop :=
  ∀ s t : State, step s = .next t → s.rst = false →
    let listed := fun (p : Instr → Bool) => ∃ i rest, decode s.stream = .ok (i, rest) ∧ p i = true
    (t.live.h ≠ s.live.h → listed fun i => i matches .reset | .setstate _ _ _ _ _ | .absorb _) ∧
    (t.live.buf ≠ s.live.buf → listed fun i => i matches .absorb _) ∧
    (t.live.bufLen ≠ s.live.bufLen → listed fun i => i matches .reset | .absorb _) ∧
    (t.live.totalLen ≠ s.live.totalLen → listed fun i => i matches .reset | .absorb _ | .setlen64)

/-! ### Invariants -/

/-- The invariant holds at reset. -/
def Obligations.ResetStateMeetsTheInvariant : Prop := EngineInv State.reset

/-- Every step keeps the invariant, from every state that has it: CAUSE is 0 while FAULT = 0 (R28), the response buffer
holds at most five words (R37), and the spec's inferences R39, R40 and R152. -/
def Obligations.StepKeepsTheInvariant : Prop :=
  ∀ s t : State, EngineInv s → step s = .next t → EngineInv t

/-- Whatever words the host offers, and whenever it resets or takes responses, every state the system reaches has the
invariant, and the only stops are ILLEGAL_COMMAND and SEQUENCE_ERROR: PAD_ASSERT is unreachable, by the spec's inferences
R39, R40 and R152. What the host can do is the model's list of actions, in which an offered word is not withdrawn (log entry
14) and an assertion of the reset input without an engine step is lost (log entry 17). -/
def Obligations.EveryReachableStateMeetsTheInvariant : Prop :=
  ∀ (es : List Event) (o : Host.Outcome State Fault Refusal), systemRun es State.reset = o →
    match o with
    | .next s => EngineInv s
    | .fault r => r = .halted .illegalCommand ∨ r = .halted .sequenceError
    | .refused _ => False

/-- What the spec leaves unspecified (R26, R33 to R36; the model's values are its own choice, log entries 1 and 2) cannot be
observed: two states that differ only there take
steps that differ only there, with the same outputs, under every schedule of the model's host actions (log
entries 14 and 17). -/
def Obligations.UnspecifiedStateIsUnobservable : Prop :=
  ∀ (es : List Event) (s t : State), SameVisible s t →
    SameOutcome (systemRun es s) (systemRun es t) ∧ s.status = t.status ∧ s.cmdReady = t.cmdReady ∧
      s.rspData = t.rspData

/-! ### SHA-1 -/

/-- R81: the words of `SUM d`, run from any idle engine, end with the SHA-1 digest of `d` in the response buffer and the
words after them untouched. The count of one step a command is the model's (log entry 8). -/
def Obligations.SumComputesSha1 : Prop :=
  ∀ d : List Byte, (assemble (sumCommands d)).isSome = true ∧
    ∀ (s : State) (words rest : List Word), s.idle → assemble (sumCommands d) = some words → s.cmd = words ++ rest →
      ∃ t, systemRun (List.replicate (sumCommands d).length .engine) s = .next t ∧
        t.rspBuf = (sha1 d).words ∧ t.cmd = rest ∧ t.fault = false

/-- R82: SUMIS never faults, and returns the digest continued from the supplied words with one block already counted.
That the response joins untaken response words is the model's (log entry 13). -/
def Obligations.SumisNeverFaults : Prop :=
  ∀ (s : State) (d : List Byte) (x : Accum), ∃ t, execAll (sumisCommands d x) s = .next t ∧
    t.fault = s.fault ∧ t.cause = s.cause ∧ t.rspBuf = s.rspBuf ++ (sha1From x 64 d).words

/-- The chaining identity, the spec's inference R83: resuming from the accumulator after one block B gives the digest of
B ++ d. That the response joins untaken response words is the model's (log entry 13). -/
def Obligations.SumisChainsWithSum : Prop :=
  ∀ (s : State) (B d : List Byte), B.length = 64 →
    ∃ t u, execAll (sumisCommands d (compressBlock iv B)) s = .next t ∧
      execAll (sumCommands (B ++ d)) s = .next u ∧ t.rspBuf = u.rspBuf

/-- The finalize-on-copy property (R143), in the form of the spec's inference R149: a FINALIZE between two ABSORBs answers
the digest of what was absorbed so far and disturbs nothing. The commands are taken as effects one after another: the five
words of the first FINALIZE stay in the response buffer and those of the second join them, a ten-word buffer that no run
reaches (R37, R250), which is the model's choice for `exec` alone (log entry 13). -/
def Obligations.FinalizeOnCopyLeavesTheStreamGoing : Prop :=
  ∀ (s : State) (d1 d2 : List Byte), s.rspBuf = [] →
    ∃ t, execAll [.reset, .absorb d1, .finalize, .absorb d2, .finalize] s = .next t ∧
      t.rspBuf = (sha1 d1).words ++ (sha1 (d1 ++ d2)).words
end

