-- ==== Sys2Proof/Laws/Compress.lean ====
section
/-! SUPPORT. The shape of the schedule, and what COMPRESS leaves alone (spec R160 to R162, R173). -/

namespace Sys2Proof.Machine

/-- A block of 4n bytes has n words (R161). -/
theorem blockWords_length (blk : List Byte) : (blockWords blk).length = blk.length / 4 := by
  induction blk using blockWords.induct with
  | case1 b0 b1 b2 b3 rest ih => simp only [blockWords, List.length_cons, ih]; omega
  | case2 blk h =>
    match blk, h with
    | [], _ | [_], _ | [_, _], _ | [_, _, _], _ => simp [blockWords]
    | b0 :: b1 :: b2 :: b3 :: rest, h => exact absurd rfl (h b0 b1 b2 b3 rest)

@[simp] theorem extendSchedule_length (n : Nat) (ws : List Word) :
    (extendSchedule n ws).length = n + ws.length := by
  induction n generalizing ws with
  | zero => simp [extendSchedule]
  | succ n ih => simp [extendSchedule, ih]; omega

/-- The schedule of a 64-byte block has 80 words (R35). -/
theorem schedule_length (blk : List Byte) (h : blk.length = 64) : (schedule blk).length = 80 := by
  simp [schedule, blockWords_length, h]

@[simp] theorem compress_set_h (l : Lane) (blk : List Byte) :
    (l.compress blk).set.h = compressBlock l.set.h blk := rfl
@[simp] theorem compress_set_buf (l : Lane) (blk : List Byte) : (l.compress blk).set.buf = l.set.buf := rfl
@[simp] theorem compress_set_bufLen (l : Lane) (blk : List Byte) : (l.compress blk).set.bufLen = l.set.bufLen := rfl
@[simp] theorem compress_set_totalLen (l : Lane) (blk : List Byte) :
    (l.compress blk).set.totalLen = l.set.totalLen := rfl

@[simp] theorem compressBlocks_nil (x : Accum) : compressBlocks x [] = x := rfl
@[simp] theorem compressBlocks_cons (x : Accum) (b : List Byte) (bs : List (List Byte)) :
    compressBlocks x (b :: bs) = compressBlocks (compressBlock x b) bs := rfl
theorem compressBlocks_append (x : Accum) (as bs : List (List Byte)) :
    compressBlocks x (as ++ bs) = compressBlocks (compressBlocks x as) bs := List.foldl_append ..

end Sys2Proof.Machine
end

