-- ==== Sys2Proof/Laws/Ops.lean ====
section
/-! SUPPORT. What the shared buffer operation does (spec R23, R121): `writeBytes` replaces exactly the bytes from `start`
on. -/

namespace Sys2Proof.Machine

/-- BUF after a write that fits: the bytes before, the bytes written, the bytes after. -/
theorem writeBytes_toList (bs : List Byte) (buf : Vector Byte 64) (start : Nat) (h : start + bs.length ≤ 64) :
    (writeBytes buf start bs).toList = buf.toList.take start ++ bs ++ buf.toList.drop (start + bs.length) := by
  induction bs generalizing buf start with
  | nil => simp [writeBytes]
  | cons b bs ih =>
    simp only [List.length_cons] at h
    rw [writeBytes, ih _ _ (by omega)]
    have hset : (buf.setIfInBounds start b).toList = buf.toList.take start ++ b :: buf.toList.drop (start + 1) := by
      have hl : start < buf.toList.length := by simp; omega
      rw [Vector.toList_setIfInBounds, List.set_eq_take_append_cons_drop, if_pos hl]
    have htake : (buf.toList.take start).length = start := by simp; omega
    have hbuf : buf.toList.length = 64 := by simp
    have h1 : (buf.toList.take start ++ b :: buf.toList.drop (start + 1)).take (start + 1)
        = buf.toList.take start ++ [b] := by
      rw [List.take_append, htake, List.take_of_length_le (by omega), show start + 1 - start = 1 by omega]; rfl
    have h2 : (buf.toList.take start ++ b :: buf.toList.drop (start + 1)).drop (start + 1 + bs.length)
        = buf.toList.drop (start + (bs.length + 1)) := by
      rw [List.drop_append, htake, List.drop_eq_nil_of_le (by omega),
        show start + 1 + bs.length - start = bs.length + 1 by omega, List.nil_append, List.drop_succ_cons,
        List.drop_drop]
      congr 1; omega
    rw [hset, h1, h2]
    simp

/-- A byte outside the written range keeps its value. -/
theorem writeBytes_getElem_outside (bs : List Byte) (buf : Vector Byte 64) (start i : Nat) (hi : i < 64)
    (h : i < start ∨ start + bs.length ≤ i) : (writeBytes buf start bs)[i] = buf[i] := by
  induction bs generalizing buf start with
  | nil => rfl
  | cons b bs ih =>
    simp only [List.length_cons] at h
    rw [writeBytes, ih _ _ (by omega), Vector.getElem_setIfInBounds_ne hi (by omega)]

@[simp] theorem accum_words_length (x : Accum) : x.words.length = 5 := rfl

end Sys2Proof.Machine
end

