-- ==== Sys2Proof/Laws/Absorb.lean ====
section
/-! SUPPORT. ABSORB_INTO step by step (spec R121): one lemma per step, then `absorbInto_spec`, which says once what the
whole algorithm does to a state set (R127). -/

namespace Sys2Proof.Machine

/-! ### Blocks of a byte string -/

/-- One whole chunk at the front is the first block. -/
theorem fullBlocks_block_append (b d : List Byte) (h : b.length = 64) :
    fullBlocks (b ++ d) = b :: fullBlocks d := by
  have : (b ++ d).length / 64 = d.length / 64 + 1 := by simp [h]
  simp only [fullBlocks, this, takeBlocks]
  simp [h]

theorem lastBytes_block_append (b d : List Byte) (h : b.length = 64) : lastBytes (b ++ d) = lastBytes d := by
  have : (b ++ d).length / 64 = d.length / 64 + 1 := by simp [h]
  simp only [lastBytes, this, List.drop_append, h]
  rw [List.drop_eq_nil_of_le (by omega), show 64 * (d.length / 64 + 1) - 64 = 64 * (d.length / 64) by omega]
  rfl

theorem fullBlocks_short (d : List Byte) (h : d.length < 64) : fullBlocks d = [] := by
  simp [fullBlocks, Nat.div_eq_of_lt h, takeBlocks]

theorem lastBytes_short (d : List Byte) (h : d.length < 64) : lastBytes d = d := by
  simp [lastBytes, Nat.div_eq_of_lt h]

@[simp] theorem lastBytes_length (d : List Byte) : (lastBytes d).length = d.length % 64 := by
  simp only [lastBytes, List.length_drop]; omega

@[simp] theorem takeBlocks_length (n : Nat) (d : List Byte) : (takeBlocks n d).length = n := by
  induction n generalizing d with
  | zero => rfl
  | succ n ih => simp [takeBlocks, ih]

/-- Pieces cut from enough bytes are whole blocks. -/
theorem takeBlocks_whole (n : Nat) (d : List Byte) (h : 64 * n ≤ d.length) : ∀ b ∈ takeBlocks n d, b.length = 64 := by
  induction n generalizing d with
  | zero => simp [takeBlocks]
  | succ n ih =>
    intro b hb
    simp only [takeBlocks, List.mem_cons] at hb
    rcases hb with rfl | hb
    · simp; omega
    · exact ih (d.drop 64) (by simp; omega) b hb

theorem takeBlocks_flatten (n : Nat) (d : List Byte) : (takeBlocks n d).flatten = d.take (64 * n) := by
  induction n generalizing d with
  | zero => simp [takeBlocks]
  | succ n ih =>
    simp only [takeBlocks, List.flatten_cons, ih]
    rw [show 64 * (n + 1) = 64 + 64 * n by omega, List.take_add]

/-- A byte string is its complete chunks and what follows them. -/
theorem fullBlocks_flatten_lastBytes (d : List Byte) : (fullBlocks d).flatten ++ lastBytes d = d := by
  simp [fullBlocks, lastBytes, takeBlocks_flatten]

/-- The chunks of a stream that goes on: those complete so far, then those of what was left with what came after. -/
theorem fullBlocks_append (a b : List Byte) :
    fullBlocks (a ++ b) = fullBlocks a ++ fullBlocks (lastBytes a ++ b) ∧
    lastBytes (a ++ b) = lastBytes (lastBytes a ++ b) := by
  have key : ∀ (bs : List (List Byte)), (∀ x ∈ bs, x.length = 64) → ∀ d,
      fullBlocks (bs.flatten ++ d) = bs ++ fullBlocks d ∧ lastBytes (bs.flatten ++ d) = lastBytes d := by
    intro bs
    induction bs with
    | nil => simp
    | cons x bs ih =>
      intro h d
      have hx := h x (by simp)
      have := ih (fun y hy => h y (by simp [hy])) d
      simp only [List.flatten_cons, List.append_assoc, fullBlocks_block_append _ _ hx,
        lastBytes_block_append _ _ hx, this, List.cons_append, and_self]
  have := key (fullBlocks a) (takeBlocks_whole _ _ (by omega)) (lastBytes a ++ b)
  rwa [← List.append_assoc, fullBlocks_flatten_lastBytes] at this

@[simp] theorem validBytes_length (S : StateSet) : S.validBytes.length = S.bufLen.val := by
  simp [StateSet.validBytes]

/-! ### The four steps -/

@[simp] theorem addLength_h (l : Lane) (n : Nat) : (l.addLength n).set.h = l.set.h := rfl
@[simp] theorem addLength_buf (l : Lane) (n : Nat) : (l.addLength n).set.buf = l.set.buf := rfl
@[simp] theorem addLength_bufLen (l : Lane) (n : Nat) : (l.addLength n).set.bufLen = l.set.bufLen := rfl
@[simp] theorem addLength_totalLen (l : Lane) (n : Nat) :
    (l.addLength n).set.totalLen = l.set.totalLen + BitVec.ofNat 64 n := rfl
@[simp] theorem addLength_validBytes (l : Lane) (n : Nat) :
    (l.addLength n).set.validBytes = l.set.validBytes := rfl

/-- The chunk position is no part of the state set. -/
@[simp] theorem atPosition_set (l : Lane) (p : Nat) : (l.atPosition p).set = l.set := rfl
@[simp] theorem atPosition_pos (l : Lane) (p : Nat) : (l.atPosition p).scratch.pos = p := rfl

/-- Step 2: either the data is used up inside a buffer that stays partial, or BUFLEN is 0 after it and what was compressed
is the front of the stream. -/
theorem topUp_cases (l : Lane) (data : List Byte) :
    (l.topUp data).1.set.totalLen = l.set.totalLen ∧
    (((l.topUp data).2 = [] ∧ (l.topUp data).1.set.h = l.set.h ∧
        l.set.bufLen.val + data.length < 64 ∧
        (l.topUp data).1.set.validBytes = l.set.streamWith data) ∨
     ((l.topUp data).1.set.bufLen = 0 ∧ (l.topUp data).1.set.h = l.set.h ∧
        l.set.streamWith data = (l.topUp data).2) ∨
     ((l.topUp data).1.set.bufLen = 0 ∧ ∃ blk, blk.length = 64 ∧
        (l.topUp data).1.set.h = compressBlock l.set.h blk ∧
        l.set.streamWith data = blk ++ (l.topUp data).2)) := by
  have hb := l.set.bufLen.isLt
  unfold Lane.topUp
  split
  · next h0 =>
    refine ⟨rfl, .inr (.inl ⟨Fin.ext h0, rfl, ?_⟩)⟩
    simp [StateSet.streamWith, StateSet.validBytes, h0]
  · next h0 =>
    simp only
    have hk : (data.take (min (64 - l.set.bufLen.val) data.length)).length
        = min (64 - l.set.bufLen.val) data.length := by simp
    have hw := writeBytes_toList (data.take (min (64 - l.set.bufLen.val) data.length)) l.set.buf
      l.set.bufLen.val (by omega)
    split
    · next hf =>
      have hlen : min (64 - l.set.bufLen.val) data.length = data.length := by omega
      refine ⟨rfl, .inl ⟨by simp [hlen], rfl, by omega, ?_⟩⟩
      rw [hlen, List.take_length] at hw
      simp only [StateSet.validBytes, StateSet.streamWith, hlen, List.take_length, hw]
      rw [List.take_append, List.take_of_length_le (by simp), List.length_append]
      simp
    · next hf =>
      have hlen : min (64 - l.set.bufLen.val) data.length = 64 - l.set.bufLen.val := by omega
      refine ⟨rfl, .inr (.inr ⟨rfl, l.set.validBytes ++ data.take (64 - l.set.bufLen.val), ?_, ?_, ?_⟩)⟩
      · simp; omega
      · simp only [compress_set_h]
        congr 1
        rw [hw, hk, hlen, StateSet.validBytes, List.drop_eq_nil_of_le (by simp), List.append_nil]
      · simp [StateSet.streamWith, hlen]

/-- What step 2 leaves to take. -/
theorem topUp_rest_length (l : Lane) (data : List Byte) : (l.topUp data).2.length =
    if l.set.bufLen.val = 0 then data.length else data.length - min (64 - l.set.bufLen.val) data.length := by
  unfold Lane.topUp
  by_cases h0 : l.set.bufLen.val = 0
  · simp [h0]
  · rw [if_neg h0, if_neg h0]
    dsimp only
    split <;> simp

/-- Step 2 writes BUF from BUFLEN on, and only while data lasts. -/
theorem topUp_buf_outside (l : Lane) (data : List Byte) (i : Nat) (hi : i < 64)
    (h : ¬ (l.set.bufLen.val ≠ 0 ∧ l.set.bufLen.val ≤ i ∧ i < l.set.bufLen.val + data.length)) :
    (l.topUp data).1.set.buf[i] = l.set.buf[i] := by
  unfold Lane.topUp
  split
  · rfl
  · dsimp only
    split
    · exact writeBytes_getElem_outside _ _ _ _ hi (by simp at *; omega)
    · exact writeBytes_getElem_outside _ _ _ _ hi (by simp at *; omega)

/-- Step 4 writes BUF below the tail's length only. -/
theorem storeTail_buf_outside (l : Lane) (tail : List Byte) (i : Nat) (hi : i < 64) (h : tail.length ≤ i) :
    (l.storeTail tail).set.buf[i] = l.set.buf[i] := by
  unfold Lane.storeTail
  split
  · rfl
  · exact writeBytes_getElem_outside _ _ _ _ hi (.inr (by omega))

/-- Step 3 compresses the whole chunks in order and touches only the accumulator (R173). -/
theorem absorbChunks_set (n : Nat) (l : Lane) (data : List Byte) :
    (l.absorbChunks n data).set = { l.set with h := compressBlocks l.set.h (takeBlocks n data) } := by
  induction n generalizing l data with
  | zero => rfl
  | succ n ih => simp [Lane.absorbChunks, ih, takeBlocks, Lane.compress]

/-- Step 4 makes a tail of fewer than 64 bytes the valid bytes of an empty buffer. -/
theorem storeTail_cases (l : Lane) (tail : List Byte) (h : tail.length < 64) :
    (l.storeTail tail).set.h = l.set.h ∧ (l.storeTail tail).set.totalLen = l.set.totalLen ∧
    (tail = [] → l.storeTail tail = l) ∧
    (tail ≠ [] → (l.storeTail tail).set.bufLen.val = tail.length ∧ (l.storeTail tail).set.validBytes = tail) := by
  unfold Lane.storeTail
  split
  · next h0 => exact ⟨rfl, rfl, fun _ => rfl, fun hn => absurd h0 hn⟩
  · next h0 =>
    have hv : (Fin.ofNat 64 tail.length).val = tail.length := Nat.mod_eq_of_lt h
    refine ⟨rfl, rfl, fun hn => absurd hn h0, fun _ => ⟨hv, ?_⟩⟩
    simp only [StateSet.validBytes, hv]
    rw [writeBytes_toList _ _ _ (by omega)]
    simp

/-! ### The whole algorithm -/

/-- Steps 3 and 4 on the bytes that remain after step 2. -/
theorem chunksAndTail_spec (l : Lane) (rest : List Byte) (h0 : l.set.bufLen = 0 ∨ rest = []) :
    ((l.absorbChunks (rest.length / 64) rest).storeTail (rest.drop (64 * (rest.length / 64)))).set.h
        = compressBlocks l.set.h (fullBlocks rest) ∧
    ((l.absorbChunks (rest.length / 64) rest).storeTail (rest.drop (64 * (rest.length / 64)))).set.totalLen
        = l.set.totalLen ∧
    ((l.absorbChunks (rest.length / 64) rest).storeTail (rest.drop (64 * (rest.length / 64)))).set.validBytes
        = if rest = [] then l.set.validBytes else lastBytes rest := by
  have hl : (rest.drop (64 * (rest.length / 64))).length < 64 := by simp; omega
  obtain ⟨hh, ht, hnil, hcons⟩ := storeTail_cases (l.absorbChunks (rest.length / 64) rest) _ hl
  refine ⟨by rw [hh, absorbChunks_set]; rfl, by rw [ht, absorbChunks_set], ?_⟩
  by_cases hr : rest = []
  · subst hr; rfl
  · rw [if_neg hr]
    have hb : l.set.bufLen = 0 := h0.resolve_right hr
    by_cases hd : rest.drop (64 * (rest.length / 64)) = []
    · rw [hnil hd, lastBytes, hd, absorbChunks_set]
      simp [StateSet.validBytes, hb]
    · exact (hcons hd).2

/-- ABSORB_INTO on a state set (R127): the count, the accumulator over the complete chunks of the stream, and the bytes
left in the buffer. -/
theorem absorbInto_spec (l : Lane) (data : List Byte) :
    (l.absorbInto data).set.totalLen = l.set.totalLen + BitVec.ofNat 64 data.length ∧
    (l.absorbInto data).set.h = compressBlocks l.set.h (fullBlocks (l.set.streamWith data)) ∧
    (l.absorbInto data).set.validBytes = lastBytes (l.set.streamWith data) := by
  obtain ⟨ht, hc⟩ := topUp_cases (l.addLength data.length) data
  simp only [Lane.absorbInto, atPosition_set]
  generalize hp : (l.addLength data.length).topUp data = p at ht hc
  obtain ⟨topped, rest⟩ := p
  simp only [addLength_totalLen, addLength_h] at ht hc
  have hstream : (l.addLength data.length).set.streamWith data = l.set.streamWith data := rfl
  rw [hstream] at hc
  have hlen : (l.set.streamWith data).length = l.set.bufLen.val + data.length := by
    simp [StateSet.streamWith]
  rcases hc with ⟨hr, hh, hlt, hv⟩ | ⟨hb, hh, hs⟩ | ⟨hb, blk, hblk, hh, hs⟩
  · obtain ⟨c1, c2, c3⟩ := chunksAndTail_spec topped rest (.inr hr)
    have hshort : (l.set.streamWith data).length < 64 := by rw [hlen]; exact hlt
    refine ⟨c2.trans ht, ?_, ?_⟩
    · rw [c1, hh, hr, fullBlocks_short _ hshort]; rfl
    · rw [c3, if_pos hr, hv, lastBytes_short _ hshort]
  · obtain ⟨c1, c2, c3⟩ := chunksAndTail_spec topped rest (.inl hb)
    refine ⟨c2.trans ht, by rw [c1, hh, hs], ?_⟩
    rw [c3, hs]
    split
    · next hr => simp [StateSet.validBytes, hb, hr, lastBytes]
    · rfl
  · obtain ⟨c1, c2, c3⟩ := chunksAndTail_spec topped rest (.inl hb)
    refine ⟨c2.trans ht, ?_, ?_⟩
    · rw [c1, hh, hs, fullBlocks_block_append _ _ hblk]; rfl
    · rw [c3, hs, lastBytes_block_append _ _ hblk]
      split
      · next hr => simp [StateSet.validBytes, hb, hr, lastBytes]
      · rfl

/-- BUFLEN after ABSORB_INTO (R127). -/
theorem absorbInto_bufLen (l : Lane) (data : List Byte) :
    (l.absorbInto data).set.bufLen.val = (l.set.bufLen.val + data.length) % 64 := by
  rw [← validBytes_length, (absorbInto_spec l data).2.2, lastBytes_length]
  simp [StateSet.streamWith]

end Sys2Proof.Machine
end

