-- ==== Sys2Proof/Laws/Operands.lean ====
section
/-! SUPPORT. The byte-order helpers: how many bytes and words they make, and that unpacking undoes packing (spec R10, R54,
R84). -/

namespace Sys2Proof.Machine

@[simp] theorem be32bytes_length (w : Word) : (be32bytes w).length = 4 := rfl

@[simp] theorem be64bytes_length (v : DWord) : (be64bytes v).length = 8 := rfl

/-- `BE32bytes` is the inverse of `BE32` (R10). -/
@[simp] theorem be32bytes_be32 (b0 b1 b2 b3 : Byte) : be32bytes (be32 b0 b1 b2 b3) = [b0, b1, b2, b3] := by
  simp only [be32bytes, be32, List.cons.injEq, and_true]
  refine ⟨?_, ?_, ?_, ?_⟩ <;> ext i hi <;>
    simp only [BitVec.getElem_extractLsb', BitVec.getLsbD_append]
  · simp [show ¬ 24 + i < 8 by omega, show ¬ 24 + i - 8 < 8 by omega, show ¬ 24 + i - 8 - 8 < 8 by omega,
      show 24 + i - 8 - 8 - 8 = i by omega, hi]
  · simp [show ¬ 16 + i < 8 by omega, show ¬ 16 + i - 8 < 8 by omega, show 16 + i - 8 - 8 = i by omega, hi]
  · simp [hi]
  · simp [hi]

@[simp] theorem flatMap_be32bytes_length (ws : List Word) : (ws.flatMap be32bytes).length = 4 * ws.length := by
  induction ws with
  | nil => rfl
  | cons w ws ih => simp only [List.flatMap_cons, List.length_append, be32bytes_length, ih, List.length_cons]; omega

/-- An ABSORB of n bytes packs into `ceil(n / 4)` words (R71). -/
@[simp] theorem packWords_length (d : List Byte) : (packWords d).length = wordsForBytes d.length := by
  induction d using packWords.induct with
  | case1 => rfl
  | case2 | case3 | case4 => simp [packWords, wordsForBytes]
  | case5 b0 b1 b2 b3 rest ih => simp only [packWords, List.length_cons, ih, wordsForBytes]; omega

theorem messageBytes_length (len : Nat) (ws : List Word) (h : wordsForBytes len ≤ ws.length) :
    (messageBytes len ws).length = len := by
  unfold wordsForBytes at h
  simp only [messageBytes, List.length_take, flatMap_be32bytes_length]; omega

/-- Unpacking the packed words gives the bytes back (R54, R84). -/
@[simp] theorem messageBytes_packWords (d : List Byte) : messageBytes d.length (packWords d) = d := by
  induction d using packWords.induct with
  | case1 => rfl
  | case2 | case3 | case4 => simp [packWords, messageBytes]
  | case5 b0 b1 b2 b3 rest ih => simpa [packWords, messageBytes] using ih

end Sys2Proof.Machine
end

