-- ==== Sys2Proof/Laws/Decode.lean ====
section
/-! SUPPORT. The header decoder, outcome by outcome (spec R72 to R79), and the header words of R84. -/

namespace Sys2Proof

/-- Which headers an opcode that reserves ARG accepts (R77). -/
theorem plainHeader_eq_ok {k k' : Header} {a : BitVec 24} :
    plainHeader k a = .ok k' ↔ a = 0 ∧ k = k' := by
  unfold plainHeader
  split <;> simp_all

/-- A word is its two fields (R70). -/
theorem header_word_fields (hdr : Word) : argField hdr ++ opcodeField hdr = hdr := by
  apply BitVec.eq_of_getLsbD_eq
  intro i hi
  simp only [argField, opcodeField, BitVec.getLsbD_append, BitVec.getLsbD_extractLsb']
  by_cases h : i < 8
  · simp [h]
  · simp [h, show i - 8 < 24 by omega, show 8 + (i - 8) = i by omega]

theorem argField_append (a : BitVec 24) (o : BitVec 8) : argField (a ++ o) = a := by
  ext i hi
  have hb : (a ++ o).getLsbD (8 + i) = a.getLsbD i := by
    rw [BitVec.getLsbD_append]; simp
  simpa [argField, hi] using hb

theorem opcodeField_append (a : BitVec 24) (o : BitVec 8) : opcodeField (a ++ o) = o := by
  ext i hi
  have hb : (a ++ o).getLsbD i = o.getLsbD i := by
    rw [BitVec.getLsbD_append]; simp [hi]
  simpa [opcodeField, hi] using hb

/-- The header word of an ABSORB of `len` bytes decodes to it (R75, R84). -/
theorem decodeHeader_absorb_word (len : Nat) (h : len ≤ Config.maxAbsorbLen) :
    decodeHeader (Header.absorb len).word = .ok (.absorb len) := by
  have hl : len < 2 ^ 24 := by unfold Config.maxAbsorbLen at h; omega
  simp only [Header.word, decodeHeader, argField_append, opcodeField_append]
  simp only [BitVec.toNat_ofNat, Nat.mod_eq_of_lt hl]
  rfl

/-- The header word of a well-formed command decodes to its header (R84). -/
theorem decodeHeader_word (i : Instr) (h : i.wellFormed = true) : decodeHeader i.header.word = .ok i.header := by
  cases i with
  | absorb data => exact decodeHeader_absorb_word _ (by simpa [Instr.wellFormed] using h)
  | reset => rfl
  | setstate p0 p1 p2 p3 p4 => exact (rfl : decodeHeader 0x00000002 = .ok .setstate)
  | finalize => rfl
  | setlen64 => rfl

/-- Every LEN a header announces fits its 24-bit field (R75). -/
theorem decodeHeader_absorb_le {hdr : Word} {len : Nat} (h : decodeHeader hdr = .ok (.absorb len)) :
    len ≤ Config.maxAbsorbLen := by
  unfold decodeHeader at h
  have := (argField hdr).isLt
  split at h <;> simp [plainHeader_eq_ok] at h
  unfold Config.maxAbsorbLen; omega

/-! ### The stream decoder, outcome by outcome -/

theorem decode_cons_error {hdr : Word} {e : DecodeError} (h : decodeHeader hdr = .error e) (ws : List Word) :
    decode (hdr :: ws) = .error e := by
  simp [decode, h]

theorem decode_cons_missing {hdr : Word} {k : Header} {ws : List Word} (h : decodeHeader hdr = .ok k)
    (hl : ws.length < k.payloadWords) : decode (hdr :: ws) = .error .payloadMissing := by
  simp [decode, h, hl]

theorem decode_cons_ok {hdr : Word} {k : Header} {ws : List Word} (h : decodeHeader hdr = .ok k)
    (hl : k.payloadWords ≤ ws.length) :
    decode (hdr :: ws) = .ok (k.assemble (ws.take k.payloadWords), ws.drop k.payloadWords) := by
  simp [decode, h, Nat.not_lt.mpr hl]

/-- What a stream that decodes looks like: a legal header and its whole payload. -/
theorem decode_eq_ok {ws rest : List Word} {i : Instr} (h : decode ws = .ok (i, rest)) :
    ∃ hdr tail k, ws = hdr :: tail ∧ decodeHeader hdr = .ok k ∧ k.payloadWords ≤ tail.length ∧
      i = k.assemble (tail.take k.payloadWords) ∧ rest = tail.drop k.payloadWords := by
  cases ws with
  | nil => cases h
  | cons hdr tail =>
    cases hk : decodeHeader hdr with
    | error e => rw [decode_cons_error hk] at h; cases h
    | ok k =>
      by_cases hl : tail.length < k.payloadWords
      · rw [decode_cons_missing hk hl] at h; cases h
      · rw [decode_cons_ok hk (Nat.not_lt.mp hl)] at h
        injection h with h
        injection h with h1 h2
        exact ⟨hdr, tail, k, rfl, hk, Nat.not_lt.mp hl, h1.symm, h2.symm⟩

end Sys2Proof
end

