-- ==== Sys2Proof/Laws/Header.lean ====
section
/-! SUPPORT. The header decoder in terms of the numbers OPC and ARG (spec R70, R73), and the command a decoded header and
its payload make. -/

namespace Sys2Proof.Machine

theorem opcodeField_toNat (hdr : Word) : (opcodeField hdr).toNat = opcOf hdr := by
  simp [opcodeField, opcOf, BitVec.extractLsb'_toNat]

theorem argField_toNat (hdr : Word) : (argField hdr).toNat = argOf hdr := by
  have := hdr.isLt
  simp only [argField, argOf, BitVec.extractLsb'_toNat, Nat.shiftRight_eq_div_pow]; omega

theorem argField_eq_zero (hdr : Word) : argField hdr = 0 ↔ argOf hdr = 0 := by
  rw [← argField_toNat]
  exact ⟨fun h => by rw [h]; rfl, fun h => BitVec.eq_of_toNat_eq h⟩

/-- A header word is told by its two numbers. -/
theorem eq_ofNat_iff_fields (hdr : Word) (n : Nat) (h : n < 2 ^ 32) :
    hdr = BitVec.ofNat 32 n ↔ opcOf hdr = n % 256 ∧ argOf hdr = n / 256 := by
  rw [← BitVec.toNat_inj]
  have := hdr.isLt
  simp only [BitVec.toNat_ofNat, opcOf, argOf]
  omega

/-- The header check of R73 as a chain of tests on OPC and ARG. -/
theorem decodeHeader_by_fields (hdr : Word) : decodeHeader hdr =
    if opcOf hdr = 1 then (if argOf hdr = 0 then .ok .reset else .error .reservedArg)
    else if opcOf hdr = 2 then (if argOf hdr = 0 then .ok .setstate else .error .reservedArg)
    else if opcOf hdr = 3 then .ok (.absorb (argOf hdr))
    else if opcOf hdr = 4 then (if argOf hdr = 0 then .ok .finalize else .error .reservedArg)
    else if opcOf hdr = 5 then (if argOf hdr = 0 then .ok .setlen64 else .error .reservedArg)
    else .error .reservedOpcode := by
  unfold decodeHeader
  rw [opcodeField_toNat, argField_toNat]
  simp only [plainHeader, argField_eq_zero]
  split <;> simp_all

/-- The command assembled from a header and its whole payload has that header. -/
theorem assemble_header {k : Header} {ws : List Word} (hl : k.payloadWords ≤ ws.length) :
    (k.assemble (ws.take k.payloadWords)).header = k := by
  cases k with
  | absorb n =>
    simp only [Header.assemble, Instr.header, Header.payloadWords] at *
    rw [messageBytes_length]; simp; omega
  | reset | setstate | finalize | setlen64 => rfl

end Sys2Proof.Machine
end

