-- ==== Sys2Proof/Laws/PerInstr.lean ====
section
/-! SUPPORT. Statements made command by command. Family `CommandLength`: the encoder writes one header word and exactly
the payload words the header announces (spec R71, R74). -/

namespace Sys2Proof.Laws.CommandLength

/-- The number of words of a command, told from its header alone (R74). -/
def Statement (i : Instr) : Prop := (encode i).length = 1 + i.header.payloadWords

theorem reset : Statement .reset := rfl

theorem setstate (p0 p1 p2 p3 p4 : Word) : Statement (.setstate p0 p1 p2 p3 p4) := rfl

theorem absorb (data : List Byte) : Statement (.absorb data) := by
  simp only [Statement, encode, Instr.header, Instr.payload, Header.payloadWords, List.length_cons,
    Machine.packWords_length]
  omega

theorem finalize : Statement .finalize := rfl

theorem setlen64 : Statement .setlen64 := rfl

end Sys2Proof.Laws.CommandLength
end

