-- ==== Sys2Proof/Laws/State.lean ====
section
/-! SUPPORT. One lemma per field per state update, so that no later proof unfolds a record update. -/

namespace Sys2Proof.Machine

variable (s : State)

@[simp] theorem enterFault_live (c : Cause) : (s.enterFault c).live = s.live := rfl
@[simp] theorem enterFault_fresh (c : Cause) : (s.enterFault c).fresh = s.fresh := rfl
@[simp] theorem enterFault_fault (c : Cause) : (s.enterFault c).fault = true := rfl
@[simp] theorem enterFault_cause (c : Cause) : (s.enterFault c).cause = c := rfl
@[simp] theorem enterFault_copy (c : Cause) : (s.enterFault c).copy = s.copy := rfl
@[simp] theorem enterFault_scratch (c : Cause) : (s.enterFault c).scratch = s.scratch := rfl
@[simp] theorem enterFault_taken (c : Cause) : (s.enterFault c).taken = s.taken := rfl
@[simp] theorem enterFault_rspBuf (c : Cause) : (s.enterFault c).rspBuf = s.rspBuf := rfl
@[simp] theorem enterFault_cmd (c : Cause) : (s.enterFault c).cmd = s.cmd := rfl
@[simp] theorem enterFault_rspReady (c : Cause) : (s.enterFault c).rspReady = s.rspReady := rfl
@[simp] theorem enterFault_rst (c : Cause) : (s.enterFault c).rst = s.rst := rfl
@[simp] theorem enterFault_rspOut (c : Cause) : (s.enterFault c).rspOut = s.rspOut := rfl

@[simp] theorem consumeTo_live (rest : List Word) : (s.consumeTo rest).live = s.live := rfl
@[simp] theorem consumeTo_fresh (rest : List Word) : (s.consumeTo rest).fresh = s.fresh := rfl
@[simp] theorem consumeTo_fault (rest : List Word) : (s.consumeTo rest).fault = s.fault := rfl
@[simp] theorem consumeTo_cause (rest : List Word) : (s.consumeTo rest).cause = s.cause := rfl
@[simp] theorem consumeTo_copy (rest : List Word) : (s.consumeTo rest).copy = s.copy := rfl
@[simp] theorem consumeTo_scratch (rest : List Word) : (s.consumeTo rest).scratch = s.scratch := rfl
@[simp] theorem consumeTo_taken (rest : List Word) : (s.consumeTo rest).taken = [] := rfl
@[simp] theorem consumeTo_rspBuf (rest : List Word) : (s.consumeTo rest).rspBuf = s.rspBuf := rfl
@[simp] theorem consumeTo_cmd (rest : List Word) : (s.consumeTo rest).cmd = rest := rfl
@[simp] theorem consumeTo_rspReady (rest : List Word) : (s.consumeTo rest).rspReady = s.rspReady := rfl
@[simp] theorem consumeTo_rst (rest : List Word) : (s.consumeTo rest).rst = s.rst := rfl
@[simp] theorem consumeTo_rspOut (rest : List Word) : (s.consumeTo rest).rspOut = s.rspOut := rfl

@[simp] theorem holdForPayload_live (got : List Word) : (s.holdForPayload got).live = s.live := rfl
@[simp] theorem holdForPayload_fresh (got : List Word) : (s.holdForPayload got).fresh = s.fresh := rfl
@[simp] theorem holdForPayload_fault (got : List Word) : (s.holdForPayload got).fault = s.fault := rfl
@[simp] theorem holdForPayload_cause (got : List Word) : (s.holdForPayload got).cause = s.cause := rfl
@[simp] theorem holdForPayload_copy (got : List Word) : (s.holdForPayload got).copy = s.copy := rfl
@[simp] theorem holdForPayload_scratch (got : List Word) : (s.holdForPayload got).scratch = s.scratch := rfl
@[simp] theorem holdForPayload_taken (got : List Word) : (s.holdForPayload got).taken = got := rfl
@[simp] theorem holdForPayload_rspBuf (got : List Word) : (s.holdForPayload got).rspBuf = s.rspBuf := rfl
@[simp] theorem holdForPayload_cmd (got : List Word) : (s.holdForPayload got).cmd = [] := rfl
@[simp] theorem holdForPayload_rspReady (got : List Word) : (s.holdForPayload got).rspReady = s.rspReady := rfl
@[simp] theorem holdForPayload_rst (got : List Word) : (s.holdForPayload got).rst = s.rst := rfl
@[simp] theorem holdForPayload_rspOut (got : List Word) : (s.holdForPayload got).rspOut = s.rspOut := rfl

@[simp] theorem deliver_live (w : Word) (rest : List Word) : (s.deliver w rest).live = s.live := rfl
@[simp] theorem deliver_fresh (w : Word) (rest : List Word) : (s.deliver w rest).fresh = s.fresh := rfl
@[simp] theorem deliver_fault (w : Word) (rest : List Word) : (s.deliver w rest).fault = s.fault := rfl
@[simp] theorem deliver_cause (w : Word) (rest : List Word) : (s.deliver w rest).cause = s.cause := rfl
@[simp] theorem deliver_copy (w : Word) (rest : List Word) : (s.deliver w rest).copy = s.copy := rfl
@[simp] theorem deliver_scratch (w : Word) (rest : List Word) : (s.deliver w rest).scratch = s.scratch := rfl
@[simp] theorem deliver_taken (w : Word) (rest : List Word) : (s.deliver w rest).taken = s.taken := rfl
@[simp] theorem deliver_rspBuf (w : Word) (rest : List Word) : (s.deliver w rest).rspBuf = rest := rfl
@[simp] theorem deliver_cmd (w : Word) (rest : List Word) : (s.deliver w rest).cmd = s.cmd := rfl
@[simp] theorem deliver_rspReady (w : Word) (rest : List Word) : (s.deliver w rest).rspReady = s.rspReady := rfl
@[simp] theorem deliver_rst (w : Word) (rest : List Word) : (s.deliver w rest).rst = s.rst := rfl
@[simp] theorem deliver_rspOut (w : Word) (rest : List Word) : (s.deliver w rest).rspOut = s.rspOut ++ [w] := rfl

@[simp] theorem respond_live (ws : List Word) : (s.respond ws).live = s.live := rfl
@[simp] theorem respond_fresh (ws : List Word) : (s.respond ws).fresh = s.fresh := rfl
@[simp] theorem respond_fault (ws : List Word) : (s.respond ws).fault = s.fault := rfl
@[simp] theorem respond_cause (ws : List Word) : (s.respond ws).cause = s.cause := rfl
@[simp] theorem respond_copy (ws : List Word) : (s.respond ws).copy = s.copy := rfl
@[simp] theorem respond_scratch (ws : List Word) : (s.respond ws).scratch = s.scratch := rfl
@[simp] theorem respond_taken (ws : List Word) : (s.respond ws).taken = s.taken := rfl
@[simp] theorem respond_rspBuf (ws : List Word) : (s.respond ws).rspBuf = s.rspBuf ++ ws := rfl
@[simp] theorem respond_cmd (ws : List Word) : (s.respond ws).cmd = s.cmd := rfl
@[simp] theorem respond_rspReady (ws : List Word) : (s.respond ws).rspReady = s.rspReady := rfl
@[simp] theorem respond_rst (ws : List Word) : (s.respond ws).rst = s.rst := rfl
@[simp] theorem respond_rspOut (ws : List Word) : (s.respond ws).rspOut = s.rspOut := rfl

@[simp] theorem putLive_live (l : Lane) : (s.putLive l).live = l.set := rfl
@[simp] theorem putLive_fresh (l : Lane) : (s.putLive l).fresh = s.fresh := rfl
@[simp] theorem putLive_fault (l : Lane) : (s.putLive l).fault = s.fault := rfl
@[simp] theorem putLive_cause (l : Lane) : (s.putLive l).cause = s.cause := rfl
@[simp] theorem putLive_copy (l : Lane) : (s.putLive l).copy = s.copy := rfl
@[simp] theorem putLive_scratch (l : Lane) : (s.putLive l).scratch = l.scratch := rfl
@[simp] theorem putLive_taken (l : Lane) : (s.putLive l).taken = s.taken := rfl
@[simp] theorem putLive_rspBuf (l : Lane) : (s.putLive l).rspBuf = s.rspBuf := rfl
@[simp] theorem putLive_cmd (l : Lane) : (s.putLive l).cmd = s.cmd := rfl
@[simp] theorem putLive_rspReady (l : Lane) : (s.putLive l).rspReady = s.rspReady := rfl
@[simp] theorem putLive_rst (l : Lane) : (s.putLive l).rst = s.rst := rfl
@[simp] theorem putLive_rspOut (l : Lane) : (s.putLive l).rspOut = s.rspOut := rfl

@[simp] theorem putCopy_live (l : Lane) : (s.putCopy l).live = s.live := rfl
@[simp] theorem putCopy_fresh (l : Lane) : (s.putCopy l).fresh = s.fresh := rfl
@[simp] theorem putCopy_fault (l : Lane) : (s.putCopy l).fault = s.fault := rfl
@[simp] theorem putCopy_cause (l : Lane) : (s.putCopy l).cause = s.cause := rfl
@[simp] theorem putCopy_copy (l : Lane) : (s.putCopy l).copy = l.set := rfl
@[simp] theorem putCopy_scratch (l : Lane) : (s.putCopy l).scratch = l.scratch := rfl
@[simp] theorem putCopy_taken (l : Lane) : (s.putCopy l).taken = s.taken := rfl
@[simp] theorem putCopy_rspBuf (l : Lane) : (s.putCopy l).rspBuf = s.rspBuf := rfl
@[simp] theorem putCopy_cmd (l : Lane) : (s.putCopy l).cmd = s.cmd := rfl
@[simp] theorem putCopy_rspReady (l : Lane) : (s.putCopy l).rspReady = s.rspReady := rfl
@[simp] theorem putCopy_rst (l : Lane) : (s.putCopy l).rst = s.rst := rfl
@[simp] theorem putCopy_rspOut (l : Lane) : (s.putCopy l).rspOut = s.rspOut := rfl

@[simp] theorem readyWith_live (ws : List Word) : (s.readyWith ws).live = s.live := rfl
@[simp] theorem readyWith_fresh (ws : List Word) : (s.readyWith ws).fresh = s.fresh := rfl
@[simp] theorem readyWith_fault (ws : List Word) : (s.readyWith ws).fault = false := rfl
@[simp] theorem readyWith_cause (ws : List Word) : (s.readyWith ws).cause = .none := rfl
@[simp] theorem readyWith_copy (ws : List Word) : (s.readyWith ws).copy = s.copy := rfl
@[simp] theorem readyWith_scratch (ws : List Word) : (s.readyWith ws).scratch = s.scratch := rfl
@[simp] theorem readyWith_taken (ws : List Word) : (s.readyWith ws).taken = [] := rfl
@[simp] theorem readyWith_rspBuf (ws : List Word) : (s.readyWith ws).rspBuf = [] := rfl
@[simp] theorem readyWith_cmd (ws : List Word) : (s.readyWith ws).cmd = ws ++ s.cmd := rfl
@[simp] theorem readyWith_rspReady (ws : List Word) : (s.readyWith ws).rspReady = s.rspReady := rfl
@[simp] theorem readyWith_rst (ws : List Word) : (s.readyWith ws).rst = false := rfl
@[simp] theorem readyWith_rspOut (ws : List Word) : (s.readyWith ws).rspOut = s.rspOut := rfl

@[simp] theorem resetInput_live : s.resetInput.live = StateSet.reset := rfl
@[simp] theorem resetInput_fresh : s.resetInput.fresh = true := rfl
@[simp] theorem resetInput_fault : s.resetInput.fault = false := rfl
@[simp] theorem resetInput_cause : s.resetInput.cause = .none := rfl
@[simp] theorem resetInput_copy : s.resetInput.copy = StateSet.reset := rfl
@[simp] theorem resetInput_scratch : s.resetInput.scratch = Scratch.reset := rfl
@[simp] theorem resetInput_taken : s.resetInput.taken = [] := rfl
@[simp] theorem resetInput_rspBuf : s.resetInput.rspBuf = [] := rfl
@[simp] theorem resetInput_cmd : s.resetInput.cmd = s.cmd := rfl
@[simp] theorem resetInput_rspReady : s.resetInput.rspReady = s.rspReady := rfl
@[simp] theorem resetInput_rst : s.resetInput.rst = s.rst := rfl
@[simp] theorem resetInput_rspOut : s.resetInput.rspOut = s.rspOut := rfl

@[simp] theorem reset_live : State.reset.live = StateSet.reset := rfl
@[simp] theorem reset_fresh : State.reset.fresh = true := rfl
@[simp] theorem reset_fault : State.reset.fault = false := rfl
@[simp] theorem reset_cause : State.reset.cause = .none := rfl
@[simp] theorem reset_copy : State.reset.copy = StateSet.reset := rfl
@[simp] theorem reset_scratch : State.reset.scratch = Scratch.reset := rfl
@[simp] theorem reset_taken : State.reset.taken = [] := rfl
@[simp] theorem reset_rspBuf : State.reset.rspBuf = [] := rfl
@[simp] theorem reset_cmd : State.reset.cmd = [] := rfl
@[simp] theorem reset_rspReady : State.reset.rspReady = true := rfl
@[simp] theorem reset_rst : State.reset.rst = false := rfl
@[simp] theorem reset_rspOut : State.reset.rspOut = [] := rfl

@[simp] theorem host_offer_live (w : Word) : (s.host (.offer w)).live = s.live := rfl
@[simp] theorem host_offer_fresh (w : Word) : (s.host (.offer w)).fresh = s.fresh := rfl
@[simp] theorem host_offer_fault (w : Word) : (s.host (.offer w)).fault = s.fault := rfl
@[simp] theorem host_offer_cause (w : Word) : (s.host (.offer w)).cause = s.cause := rfl
@[simp] theorem host_offer_copy (w : Word) : (s.host (.offer w)).copy = s.copy := rfl
@[simp] theorem host_offer_scratch (w : Word) : (s.host (.offer w)).scratch = s.scratch := rfl
@[simp] theorem host_offer_taken (w : Word) : (s.host (.offer w)).taken = s.taken := rfl
@[simp] theorem host_offer_rspBuf (w : Word) : (s.host (.offer w)).rspBuf = s.rspBuf := rfl
@[simp] theorem host_offer_cmd (w : Word) : (s.host (.offer w)).cmd = s.cmd ++ [w] := rfl
@[simp] theorem host_offer_rspReady (w : Word) : (s.host (.offer w)).rspReady = s.rspReady := rfl
@[simp] theorem host_offer_rst (w : Word) : (s.host (.offer w)).rst = s.rst := rfl
@[simp] theorem host_offer_rspOut (w : Word) : (s.host (.offer w)).rspOut = s.rspOut := rfl

@[simp] theorem host_setRspReady_live (r : Bool) : (s.host (.setRspReady r)).live = s.live := rfl
@[simp] theorem host_setRspReady_fresh (r : Bool) : (s.host (.setRspReady r)).fresh = s.fresh := rfl
@[simp] theorem host_setRspReady_fault (r : Bool) : (s.host (.setRspReady r)).fault = s.fault := rfl
@[simp] theorem host_setRspReady_cause (r : Bool) : (s.host (.setRspReady r)).cause = s.cause := rfl
@[simp] theorem host_setRspReady_copy (r : Bool) : (s.host (.setRspReady r)).copy = s.copy := rfl
@[simp] theorem host_setRspReady_scratch (r : Bool) : (s.host (.setRspReady r)).scratch = s.scratch := rfl
@[simp] theorem host_setRspReady_taken (r : Bool) : (s.host (.setRspReady r)).taken = s.taken := rfl
@[simp] theorem host_setRspReady_rspBuf (r : Bool) : (s.host (.setRspReady r)).rspBuf = s.rspBuf := rfl
@[simp] theorem host_setRspReady_cmd (r : Bool) : (s.host (.setRspReady r)).cmd = s.cmd := rfl
@[simp] theorem host_setRspReady_rspReady (r : Bool) : (s.host (.setRspReady r)).rspReady = r := rfl
@[simp] theorem host_setRspReady_rst (r : Bool) : (s.host (.setRspReady r)).rst = s.rst := rfl
@[simp] theorem host_setRspReady_rspOut (r : Bool) : (s.host (.setRspReady r)).rspOut = s.rspOut := rfl

@[simp] theorem host_setRst_live (r : Bool) : (s.host (.setRst r)).live = s.live := rfl
@[simp] theorem host_setRst_fresh (r : Bool) : (s.host (.setRst r)).fresh = s.fresh := rfl
@[simp] theorem host_setRst_fault (r : Bool) : (s.host (.setRst r)).fault = s.fault := rfl
@[simp] theorem host_setRst_cause (r : Bool) : (s.host (.setRst r)).cause = s.cause := rfl
@[simp] theorem host_setRst_copy (r : Bool) : (s.host (.setRst r)).copy = s.copy := rfl
@[simp] theorem host_setRst_scratch (r : Bool) : (s.host (.setRst r)).scratch = s.scratch := rfl
@[simp] theorem host_setRst_taken (r : Bool) : (s.host (.setRst r)).taken = s.taken := rfl
@[simp] theorem host_setRst_rspBuf (r : Bool) : (s.host (.setRst r)).rspBuf = s.rspBuf := rfl
@[simp] theorem host_setRst_cmd (r : Bool) : (s.host (.setRst r)).cmd = s.cmd := rfl
@[simp] theorem host_setRst_rspReady (r : Bool) : (s.host (.setRst r)).rspReady = s.rspReady := rfl
@[simp] theorem host_setRst_rst (r : Bool) : (s.host (.setRst r)).rst = r := rfl
@[simp] theorem host_setRst_rspOut (r : Bool) : (s.host (.setRst r)).rspOut = s.rspOut := rfl

@[simp] theorem lane_set : s.lane.set = s.live := rfl
@[simp] theorem lane_scratch : s.lane.scratch = s.scratch := rfl
@[simp] theorem stateSet_reset_h : StateSet.reset.h = iv := rfl
@[simp] theorem stateSet_reset_bufLen : StateSet.reset.bufLen = 0 := rfl
@[simp] theorem stateSet_reset_totalLen : StateSet.reset.totalLen = 0 := rfl

/-- Only the words offered and taken count for the stream. -/
theorem stream_consumeTo (rest : List Word) : (s.consumeTo rest).stream = rest := rfl

end Sys2Proof.Machine
end

