-- ==== Sys2Proof/Laws/Step.lean ====
section
/-! SUPPORT. What each meaning answers, and what one step can do (`step_next_move`): later proofs cite these and do not
unfold `step`. -/

namespace Sys2Proof.Machine

/-! ### The meanings -/

theorem execSetstate_fresh {s : State} (h : s.fresh = true) (p0 p1 p2 p3 p4 : Word) :
    execSetstate p0 p1 p2 p3 p4 s = .next { s with live := { s.live with h := ⟨p0, p1, p2, p3, p4⟩ } } := by
  simp [execSetstate, h]

theorem execSetstate_late {s : State} (h : s.fresh = false) (p0 p1 p2 p3 p4 : Word) :
    execSetstate p0 p1 p2 p3 p4 s = .next (s.enterFault .sequenceError) := by
  simp [execSetstate, h]

theorem execSetlen64_fresh {s : State} (h : s.fresh = true) :
    execSetlen64 s = .next { s with live := { s.live with totalLen := 64 } } := by
  simp [execSetlen64, h]

theorem execSetlen64_late {s : State} (h : s.fresh = false) :
    execSetlen64 s = .next (s.enterFault .sequenceError) := by
  simp [execSetlen64, h]

theorem execFinalize_full {s : State} (h : s.paddedCopy.set.bufLen.val = 0) :
    execFinalize s = .next ((s.putCopy s.paddedCopy).respond s.paddedCopy.set.h.words) := by
  simp [execFinalize, h]

theorem execFinalize_notFull {s : State} (h : s.paddedCopy.set.bufLen.val ≠ 0) :
    execFinalize s = .next ((s.putCopy s.paddedCopy).enterFault .padAssert) := by
  simp [execFinalize, h]

/-- No command stops the machine by itself: a fault is a state the engine goes to (R204). -/
theorem exec_answers_next (i : Instr) (s : State) : ∃ t, exec i s = .next t := by
  cases i <;> simp only [exec, execReset, execSetstate, execAbsorb, execFinalize, execSetlen64] <;>
    (try split) <;> exact ⟨_, rfl⟩

/-- No command touches the channels' outside or the command in progress, and only FINALIZE offers words. -/
theorem exec_channels {i : Instr} {s t : State} (h : exec i s = .next t) :
    t.rst = s.rst ∧ t.cmd = s.cmd ∧ t.taken = s.taken ∧ t.rspReady = s.rspReady ∧ t.rspOut = s.rspOut ∧
      (i ≠ .finalize → t.rspBuf = s.rspBuf) := by
  cases i <;> simp only [exec, execReset, execSetstate, execAbsorb, execFinalize, execSetlen64] at h <;>
    (try split at h) <;> cases h <;> simp

/-- A command that ends faulted raised SEQUENCE_ERROR or PAD_ASSERT, before any write to the live state (R204). -/
theorem exec_enters_fault {i : Instr} {s t : State} (h : exec i s = .next t) (hs : s.fault = false)
    (ht : t.fault = true) :
    t = s.enterFault .sequenceError ∨ t = (s.putCopy s.paddedCopy).enterFault .padAssert := by
  cases i <;> simp only [exec, execReset, execSetstate, execAbsorb, execFinalize, execSetlen64] at h <;>
    (try split at h) <;> cases h <;> simp_all

/-- The padded copy is exactly full when BUFLEN is TOTALLEN mod 64 and only then (R145, R152). -/
theorem paddedCopy_bufLen (s : State) :
    s.paddedCopy.set.bufLen.val = 0 ↔ s.live.bufLen.val = s.live.totalLen.toNat % 64 := by
  unfold State.paddedCopy
  rw [absorbInto_bufLen, absorbInto_bufLen]
  simp only [lane_set, padding, be64bytes_length, List.length_cons, List.length_replicate, padLength]
  have := s.live.bufLen.isLt
  split <;> omega

/-! ### The step -/

/-- Everything a step that answers a next state can have done. -/
inductive Move (s : State) : State → Prop where
  | resetInput : s.rst = true → Move s s.resetInput
  | deliver {w : Word} {rest : List Word} : s.rst = false → s.fault = false → s.rspBuf = w :: rest →
      s.rspReady = true → Move s (s.deliver w rest)
  | awaitHost {w : Word} {rest : List Word} : s.rst = false → s.fault = false → s.rspBuf = w :: rest →
      s.rspReady = false → Move s s
  | idle : s.rst = false → s.fault = false → s.rspBuf = [] → s.stream = [] → Move s s
  | illegal {hdr : Word} {ws : List Word} {e : DecodeError} : s.rst = false → s.fault = false → s.rspBuf = [] →
      s.stream = hdr :: ws → decodeHeader hdr = .error e → Move s ((s.consumeTo ws).enterFault .illegalCommand)
  | late {hdr : Word} {ws : List Word} {k : Header} : s.rst = false → s.fault = false → s.rspBuf = [] →
      s.stream = hdr :: ws → decodeHeader hdr = .ok k → outOfSequence k s.fresh = true →
      Move s ((s.consumeTo ws).enterFault .sequenceError)
  | hold {hdr : Word} {ws : List Word} {k : Header} : s.rst = false → s.fault = false → s.rspBuf = [] →
      s.stream = hdr :: ws → decodeHeader hdr = .ok k → outOfSequence k s.fresh = false →
      ws.length < k.payloadWords → Move s (s.holdForPayload (hdr :: ws))
  | run {hdr : Word} {ws : List Word} {k : Header} {t : State} : s.rst = false → s.fault = false → s.rspBuf = [] →
      s.stream = hdr :: ws → decodeHeader hdr = .ok k → outOfSequence k s.fresh = false →
      k.payloadWords ≤ ws.length →
      exec (k.assemble (ws.take k.payloadWords)) (s.consumeTo (ws.drop k.payloadWords)) = .next t → Move s t

/-- A step that answers a next state made one of these moves. -/
theorem step_next_move {s t : State} (h : step s = .next t) : Move s t := by
  unfold step at h
  split at h
  · next hr => cases h; exact .resetInput hr
  split at h
  · cases h
  rename_i hr hf
  simp only [Bool.not_eq_true] at hr hf
  unfold runEngine at h
  split at h
  · next w rest hb =>
    unfold offerResponse at h
    split at h
    · next hready => cases h; exact .deliver hr hf hb hready
    · next hready => cases h; exact .awaitHost hr hf hb (by simpa using hready)
  · next hb =>
    unfold fetchCommand at h
    split at h
    · next hs => cases h; exact .idle hr hf hb hs
    · next hdr ws hs =>
      unfold takeCommand at h
      split at h
      · next e he => cases h; exact .illegal hr hf hb hs he
      · next k hk =>
        split at h
        · next hseq => cases h; exact .late hr hf hb hs hk hseq
        · next hseq =>
          simp only [Bool.not_eq_true] at hseq
          split at h
          · next hlt => cases h; exact .hold hr hf hb hs hk hseq hlt
          · next hge => exact .run hr hf hb hs hk hseq (by omega) h

theorem step_resetInput {s : State} (h : s.rst = true) : step s = .next s.resetInput := by
  simp [step, h]

theorem step_halted {s : State} (hr : s.rst = false) (hf : s.fault = true) :
    step s = .fault (.halted s.cause) := by
  simp [step, hr, hf]

/-- With nothing pending, a step is the taking of the command at the front of the stream. -/
theorem step_takeCommand {s : State} {hdr : Word} {ws : List Word} (hr : s.rst = false) (hf : s.fault = false)
    (hb : s.rspBuf = []) (hs : s.stream = hdr :: ws) : step s = takeCommand hdr ws s := by
  simp [step, hr, hf, runEngine, hb, fetchCommand, hs]

/-! ### Taking a command, outcome by outcome -/

theorem takeCommand_illegal {hdr : Word} {e : DecodeError} (h : decodeHeader hdr = .error e) (ws : List Word)
    (s : State) : takeCommand hdr ws s = .next ((s.consumeTo ws).enterFault .illegalCommand) := by
  simp [takeCommand, h]

theorem takeCommand_late {hdr : Word} {k : Header} (h : decodeHeader hdr = .ok k) {s : State}
    (hs : outOfSequence k s.fresh = true) (ws : List Word) :
    takeCommand hdr ws s = .next ((s.consumeTo ws).enterFault .sequenceError) := by
  simp [takeCommand, h, hs]

theorem takeCommand_hold {hdr : Word} {k : Header} {ws : List Word} {s : State} (h : decodeHeader hdr = .ok k)
    (hs : outOfSequence k s.fresh = false) (hl : ws.length < k.payloadWords) :
    takeCommand hdr ws s = .next (s.holdForPayload (hdr :: ws)) := by
  simp [takeCommand, h, hs, hl]

theorem takeCommand_run {hdr : Word} {k : Header} {ws : List Word} {s : State} (h : decodeHeader hdr = .ok k)
    (hs : outOfSequence k s.fresh = false) (hl : k.payloadWords ≤ ws.length) :
    takeCommand hdr ws s = exec (k.assemble (ws.take k.payloadWords)) (s.consumeTo (ws.drop k.payloadWords)) := by
  simp [takeCommand, h, hs, Nat.not_lt.mpr hl]

/-- The only stop is the fault state without the reset input (R204). -/
theorem step_stops_halted {s : State} {r : Fault} (h : step s = .fault r) :
    s.rst = false ∧ s.fault = true ∧ r = .halted s.cause := by
  by_cases hr : s.rst = true
  · rw [step_resetInput hr] at h; cases h
  simp only [Bool.not_eq_true] at hr
  by_cases hf : s.fault = true
  · rw [step_halted hr hf] at h; cases h; exact ⟨hr, hf, rfl⟩
  simp only [Bool.not_eq_true] at hf
  exfalso
  simp only [step, hr, hf, runEngine, Bool.false_eq_true, if_false] at h
  split at h
  · simp [offerResponse] at h
  · unfold fetchCommand at h
    split at h
    · simp at h
    · unfold takeCommand at h
      split at h
      · simp at h
      · split at h
        · simp at h
        · split at h
          · simp at h
          · obtain ⟨t, ht⟩ := exec_answers_next _ _
            rw [ht] at h; cases h

/-! ### Idle engines -/

theorem idle_stream {s : State} (h : s.idle) : s.stream = s.cmd := by
  simp [State.stream, h.2.2.1]

theorem step_idle {s : State} {hdr : Word} {ws : List Word} (h : s.idle) (hc : s.cmd = hdr :: ws) :
    step s = takeCommand hdr ws s :=
  step_takeCommand h.1 h.2.1 h.2.2.2 (by rw [idle_stream h, hc])

theorem consumeTo_idle {s : State} (h : s.idle) (ws : List Word) : s.consumeTo ws = { s with cmd := ws } := by
  obtain ⟨_, _, ht, _⟩ := h
  cases s; simp_all [State.consumeTo]

theorem step_deliver {s : State} {w : Word} {rest : List Word} (hr : s.rst = false) (hf : s.fault = false)
    (hb : s.rspBuf = w :: rest) (hy : s.rspReady = true) : step s = .next (s.deliver w rest) := by
  simp [step, hr, hf, runEngine, hb, offerResponse, hy]

/-! ### Runs -/

theorem systemRun_append (a b : List Event) {s t : State} (h : systemRun a s = .next t) :
    systemRun (a ++ b) s = systemRun b t := by
  induction a generalizing s with
  | nil => cases h; rfl
  | cons e a ih =>
    simp only [List.cons_append, systemRun] at *
    cases he : systemStep s e with
    | next u => rw [he] at h; exact ih h
    | fault r => rw [he] at h; cases h
    | refused r => rw [he] at h; cases h

theorem systemRun_engine_succ {s t : State} (n : Nat) (h : step s = .next t) :
    systemRun (List.replicate (n + 1) .engine) s = systemRun (List.replicate n .engine) t := by
  simp [List.replicate_succ, systemRun, systemStep, h]

theorem execAll_append (a b : List Instr) {s t : State} (h : execAll a s = .next t) :
    execAll (a ++ b) s = execAll b t := by
  induction a generalizing s with
  | nil => cases h; rfl
  | cons i a ih =>
    simp only [List.cons_append, execAll] at *
    cases he : exec i s with
    | next u => rw [he] at h; exact ih h
    | fault r => rw [he] at h; cases h
    | refused r => rw [he] at h; cases h

end Sys2Proof.Machine
end

