-- ==== Sys2Proof/Tests/Slice0.lean ====
section
/-! SUPPORT. Tests of the model against the spec's own words and vectors (`95_test_vectors.md` unless a rule is named), the
well-formedness smoke test, and for every statement with hypotheses a state and operands that meet them. -/

namespace Sys2Proof.Tests

open Sys2Proof.Machine

/-! ### Helpers -/

/-- The reset state with words offered. -/
def offering (ws : List Word) : State := { State.reset with cmd := ws }

/-- The reset state after an ABSORB of fewer than 64 bytes, written out (R126). -/
def holding (bytes : List Byte) (ws : List Word) : State :=
  { State.reset with
    live := { StateSet.reset with
      buf := writeBytes (Vector.replicate 64 0) 0 bytes
      bufLen := Fin.ofNat 64 bytes.length
      totalLen := BitVec.ofNat 64 bytes.length }
    fresh := false
    cmd := ws }

/-- A faulted engine. -/
def faulted (ws : List Word) : State := (offering ws).enterFault .illegalCommand

/-- The outcome is a next state that passes a check. -/
def nextIs (o : Host.Outcome State Fault Refusal) (p : State → Bool) : Bool :=
  match o with
  | .next t => p t
  | .fault _ => false
  | .refused _ => false

/-! ### Well-formedness -/

theorem wellFormed_absorb_replicate (n : Nat) :
    (Instr.absorb (List.replicate n 0)).wellFormed = decide (n ≤ 16777215) := by
  simp [Instr.wellFormed, Config.maxAbsorbLen]

/-- An ABSORB of 2^24 bytes has no encoding (R75, R80). -/
theorem test_wellFormed_refuses_long_absorb : (Instr.absorb (List.replicate 16777216 0)).wellFormed = false :=
  (wellFormed_absorb_replicate _).trans (by decide)

theorem test_wellFormed_admits_longest_absorb : (Instr.absorb (List.replicate 16777215 0)).wellFormed = true :=
  (wellFormed_absorb_replicate _).trans (by decide)

theorem assemble_absorb_replicate (n : Nat) (h : ¬ n ≤ 16777215) : assemble [.absorb (List.replicate n 0)] = none := by
  have hw : (Instr.absorb (List.replicate n 0)).wellFormed = false := by rw [wellFormed_absorb_replicate]; simp [h]
  rw [assemble, List.all_cons, hw]; rfl

theorem test_assembler_refuses_long_absorb : assemble [.absorb (List.replicate 16777216 0)] = none :=
  assemble_absorb_replicate _ (by decide)

/-! ### Decoding: words written out from R70 to R72 -/

theorem test_decode_reset : decode [0b00000000000000000000000000000001] = .ok (.reset, []) := by rfl

theorem test_decode_setstate :
    decode [0b00000000000000000000000000000010, 0x01234567, 0x89ABCDEF, 0xFEDCBA98, 0x76543210, 0xF0E1D2C3, 0x00000004]
      = .ok (.setstate 0x01234567 0x89ABCDEF 0xFEDCBA98 0x76543210 0xF0E1D2C3, [0x00000004]) := by rfl

/-- LEN = 10 in bits 31:8; the low lanes of the last word hold 0x7777 and are ignored (section 2.1). -/
theorem test_decode_absorb_ignores_unused_lanes :
    decode [0b00000000000000000000101000000011, 0x30313233, 0x34353637, 0x38397777]
      = .ok (.absorb [0x30, 0x31, 0x32, 0x33, 0x34, 0x35, 0x36, 0x37, 0x38, 0x39], []) := by rfl

theorem test_decode_finalize : decode [0b00000000000000000000000000000100] = .ok (.finalize, []) := by rfl

theorem test_decode_setlen64 : decode [0b00000000000000000000000000000101] = .ok (.setlen64, []) := by rfl

/-- Section 2.1, the words that raise ILLEGAL_COMMAND, and the longest ABSORB. -/
theorem test_decode_header_edges :
    decodeHeader 0x00000000 = .error .reservedOpcode ∧ decodeHeader 0x000000FF = .error .reservedOpcode ∧
    decodeHeader 0x00000101 = .error .reservedArg ∧ decodeHeader 0x00000105 = .error .reservedArg ∧
    decodeHeader 0x80000004 = .error .reservedArg ∧ decodeHeader 0xFFFFFF03 = .ok (.absorb 16777215) := by
  refine ⟨rfl, rfl, rfl, rfl, rfl, rfl⟩

/-- `ABSORB "0123456789"` packs as section 2.1 shows. -/
theorem test_encode_absorb :
    encode (.absorb [0x30, 0x31, 0x32, 0x33, 0x34, 0x35, 0x36, 0x37, 0x38, 0x39])
      = [0x00000A03, 0x30313233, 0x34353637, 0x38390000] := by rfl

theorem test_table_word_setstate : decodeTableWord 32 2 = some (.setstate 0 0 0 0 0) := by rfl

/-! ### One step per command -/

/-- C1: RESET from H = (1,2,3,4,5), BUFLEN = 7, TOTALLEN = 135, FRESH = 0. -/
theorem test_reset_command :
    nextIs (step { offering [0x00000001] with
        live := { StateSet.reset with h := ⟨1, 2, 3, 4, 5⟩, bufLen := 7, totalLen := 135 }, fresh := false })
      (fun t => decide (t.live.h = ⟨0x67452301, 0xEFCDAB89, 0x98BADCFE, 0x10325476, 0xC3D2E1F0⟩) &&
        t.live.bufLen == 0 && t.live.totalLen == 0 && t.status == 0x00000010) = true := by decide

/-- C2. -/
theorem test_setstate :
    nextIs (step (offering [0x00000002, 0x01234567, 0x89ABCDEF, 0xFEDCBA98, 0x76543210, 0xF0E1D2C3]))
      (fun t => decide (t.live.h = ⟨0x01234567, 0x89ABCDEF, 0xFEDCBA98, 0x76543210, 0xF0E1D2C3⟩) &&
        t.live.totalLen == 0 && t.fresh && t.cmd == []) = true := by decide

/-- P4a: the late SETSTATE leaves its five payload words untaken. -/
theorem test_setstate_late :
    nextIs (step (holding [] [0x00000002, 1, 2, 3, 4, 5]))
      (fun t => t.status == 0x00000005 && decide (t.live.h = iv) && t.cmd == [1, 2, 3, 4, 5]) = true := by decide

/-- A3 (R130): 61 bytes "d" top up a buffer that holds "abc"; one compression. -/
theorem test_absorb_top_up :
    nextIs (exec (.absorb (List.replicate 61 0x64)) (holding [0x61, 0x62, 0x63] []))
      (fun t => decide (t.live.h = ⟨0x78217200, 0xCB90037C, 0x173182A4, 0x78E7F6F2, 0x58E64264⟩) &&
        t.live.bufLen == 0 && t.live.totalLen == 64) = true := by decide +kernel

/-- A7: a 10-byte ABSORB on 61 buffered bytes compresses and leaves the tail "3456789". -/
theorem test_absorb_tail :
    nextIs (exec (.absorb [0x30, 0x31, 0x32, 0x33, 0x34, 0x35, 0x36, 0x37, 0x38, 0x39])
        (holding ([0x61, 0x62, 0x63] ++ List.replicate 58 0x64) []))
      (fun t => decide (t.live.h = ⟨0xF5D59ECD, 0x327182ED, 0xC0A1ADCF, 0xAF3E17CF, 0xA1DA2B0C⟩) &&
        t.live.validBytes == [0x33, 0x34, 0x35, 0x36, 0x37, 0x38, 0x39] && t.live.totalLen == 71) = true := by
  decide +kernel

/-- P1: the digest of "abc", one block. -/
theorem test_finalize_one_block :
    nextIs (step (holding [0x61, 0x62, 0x63] [0x00000004]))
      (fun t => t.rspBuf == [0xA9993E36, 0x4706816A, 0xBA3E2571, 0x7850C26C, 0x9CD0D89D] &&
        t.live.totalLen == 3) = true := by decide +kernel

/-- Section 2.4, n = 56: "a" × 56, two blocks. -/
theorem test_finalize_two_blocks :
    nextIs (step (holding (List.replicate 56 0x61) [0x00000004]))
      (fun t => t.rspBuf == [0xC2DB330F, 0x6083854C, 0x99D4B5BF, 0xB6E8F29F, 0x201BE699]) = true := by decide +kernel

/-- C4. -/
theorem test_setlen64 :
    nextIs (step (offering [0x00000005]))
      (fun t => t.live.totalLen == 64 && t.live.bufLen == 0 && t.fresh && decide (t.live.h = iv)) = true := by decide

/-- C7. -/
theorem test_setlen64_late :
    nextIs (step (holding [0x78] [0x00000005]))
      (fun t => t.status == 0x00000005 && t.live.bufLen == 1 && t.live.totalLen == 1) = true := by decide

/-- P4c: ARG is checked before FRESH. -/
theorem test_illegal_before_sequence :
    nextIs (step (holding [0x61] [0x00000102, 7])) (fun t => t.status == 0x00000003 && t.cmd == [7]) = true := by decide

/-- P4d: the reset input leaves the fault state. -/
theorem test_reset_input_recovers :
    nextIs (step { faulted [] with rst := true }) (fun t => t.status == 0x00000010) = true := by decide

/-- Section 2.5 and 2.6: rotl32, and a late word of the schedule of the "abc" block. -/
theorem test_rotl32 : rotl32 0x12345678 30 = 0x048D159E ∧ rotl32 0x80000001 1 = 0x00000003 := by decide

theorem test_schedule_last_word :
    (schedule ([0x61, 0x62, 0x63, 0x80] ++ List.replicate 59 0 ++ [0x18])).getD 79 0 = 0x822E0879 := by decide +kernel

/-! ### Witnesses: states and operands that meet the statements' hypotheses -/

theorem offering_idle (ws : List Word) : (offering ws).idle := ⟨rfl, rfl, rfl, rfl⟩

theorem holding_idle (bytes : List Byte) (ws : List Word) : (holding bytes ws).idle := ⟨rfl, rfl, rfl, rfl⟩

theorem offering_invariant (ws : List Word) : EngineInv (offering ws) where
  total_mod := rfl
  fresh_empty := fun _ => ⟨rfl, .inl rfl⟩
  cause_iff := ⟨fun _ => rfl, fun _ => rfl⟩
  no_pad_assert := fun h => by cases h
  rsp_bound := Nat.zero_le 5
  fault_quiet := fun h => by cases h
  taken_idle := fun h => absurd rfl h
  taken_waits := fun h => absurd rfl h

/-- DecodeOfEncodeIsTheCommand, at the longest ABSORB. -/
theorem witness_longest_absorb :
    (List.replicate 16777215 (0 : Byte)).length ≤ 16777215 ∧
    (Instr.absorb (List.replicate 16777215 0)).wellFormed = true :=
  ⟨Nat.le_of_eq List.length_replicate, test_wellFormed_admits_longest_absorb⟩

/-- AbsorbPayloadReadLaneByLane, with the unused lanes not zero. -/
theorem witness_lanes :
    ([0x61, 0x62, 0x63] : List Byte).length ≤ 16777215 ∧
    ([0x616263FF] : List Word).length = (([0x61, 0x62, 0x63] : List Byte).length + 3) / 4 ∧
    ∀ k, (h : k < ([0x61, 0x62, 0x63] : List Byte).length) →
      laneByte [0x616263FF] k = ([0x61, 0x62, 0x63] : List Byte)[k] := by
  refine ⟨by decide, by decide, ?_⟩
  decide

/-- DecodedCommandLengthIsToldByItsHeader, StepRunsTheDecodedCommand, AcceptedCommandCompletes. -/
theorem witness_step_runs :
    EngineInv (offering [0x00000303, 0x61626300, 9]) ∧ (offering [0x00000303, 0x61626300, 9]).idle ∧
    (offering [0x00000303, 0x61626300, 9]).rspReady = true ∧
    decode (offering [0x00000303, 0x61626300, 9]).stream = .ok (.absorb [0x61, 0x62, 0x63], [9]) ∧
    outOfSequence (Instr.absorb [0x61, 0x62, 0x63]).header true = false :=
  ⟨offering_invariant _, offering_idle _, rfl, rfl, rfl⟩

/-- ReservedOpcodeRaisesIllegalCommand, at the ends of both ranges. -/
theorem witness_reserved_opcode :
    (offering [0x00000000]).idle ∧ opcOf 0x00000000 = 0 ∧ 6 ≤ opcOf 0x00000006 ∧ 6 ≤ opcOf 0xFFFFFFFF := by
  refine ⟨offering_idle _, ?_, ?_, ?_⟩ <;> decide

/-- ReservedArgRaisesIllegalCommand, ResetCommandResult, SetstateResult, Setlen64Result: the ARG clauses. -/
theorem witness_reserved_arg :
    (opcOf 0x00000101 = 1 ∧ argOf 0x00000101 ≠ 0) ∧ (opcOf 0x80000002 = 2 ∧ argOf 0x80000002 ≠ 0) ∧
    (opcOf 0xFFFFFF04 = 4 ∧ argOf 0xFFFFFF04 ≠ 0) ∧ (opcOf 0x00000105 = 5 ∧ argOf 0x00000105 ≠ 0) ∧
    opcOf 0xFFFFFF03 = 3 := by decide

/-- LateCommandLeavesItsPayloadUntaken, SetstateResult and Setlen64Result while FRESH = 0. -/
theorem witness_late :
    (holding [] [2, 1]).idle ∧ (holding [] [2, 1]).fresh = false ∧ (holding [] [2, 1]).cmd = [2, 1] ∧
    (holding [] [5]).cmd = [5] := ⟨holding_idle _ _, rfl, rfl, rfl⟩

/-- FirstFailedCheckIsTheCauseReported, a state for each answer. -/
theorem witness_first_failed_check :
    (offering [6]).cause = .none ∧ firstFailedCheck 6 (offering [6]) = .illegalCommand ∧
    firstFailedCheck 0x102 (holding [] []) = .illegalCommand ∧ firstFailedCheck 2 (holding [] []) = .sequenceError ∧
    firstFailedCheck 4 { offering [4] with live := { StateSet.reset with bufLen := 1 } } = .padAssert ∧
    firstFailedCheck 4 (offering [4]) = .none := by decide

/-- FaultEntryWritesOnlyStatus, FaultAndCauseChangeOnlyOnFaultOrReset, StepKeepsTheInvariant. -/
theorem witness_fault_entry :
    EngineInv (offering [6]) ∧ (offering [6]).fault = false ∧
    step (offering [6]) = .next ((offering []).enterFault .illegalCommand) ∧
    ((offering []).enterFault .illegalCommand).fault = true :=
  ⟨offering_invariant _, rfl, rfl, rfl⟩

/-- FaultStaysUntilTheResetInput, and the last clause of ResetCommandResult. -/
theorem witness_faulted :
    (faulted [1]).fault = true ∧ (faulted [1]).rst = false ∧ (faulted [1]).cmd = [0x00000001] ∧
    Event.host (.setRst true) ∉ [Event.host (.offer 1), Event.engine] := by decide

/-- ResponsesComeBeforeTheNextHeader, waiting and ready. -/
theorem witness_untaken_response :
    ((offering [1]).respond [7]).rst = false ∧ ((offering [1]).respond [7]).fault = false ∧
    ((offering [1]).respond [7]).rspBuf = [7] ∧ ((offering [1]).respond [7]).rspReady = true ∧
    { (offering [1]).respond [7] with rspReady := false }.rspReady = false := by decide

/-- IncompletePayloadHolds, one word short in each form. -/
theorem witness_incomplete_payload :
    (offering [2, 1, 2, 3, 4]).stream = [2, 1, 2, 3, 4] ∧ opcOf 2 = 2 ∧ argOf 2 = 0 ∧
    (offering [2, 1, 2, 3, 4]).fresh = true ∧ ([1, 2, 3, 4] : List Word).length < 5 ∧
    opcOf 0x00000503 = 3 ∧ ([0] : List Word).length < (argOf 0x00000503 + 3) / 4 := by decide

/-- PayloadArrivingInPiecesRunsTheSameCommand. -/
theorem witness_pieces :
    decode ([0x00000303] ++ [0x61626300]) = .ok (.absorb [0x61, 0x62, 0x63], []) ∧
    decode [0x00000303] = .error .payloadMissing ∧
    outOfSequence (Instr.absorb [0x61, 0x62, 0x63]).header (offering []).fresh = false := ⟨rfl, rfl, rfl⟩

/-- IdleEngineKeepsItsState, ResetCommandAndResetInputAgree, FinalizeOnCopyLeavesTheStreamGoing. -/
theorem witness_idle :
    (offering []).idle ∧ (offering []).cmd = [] ∧ (offering []).cause = .none ∧ (offering []).rspBuf = [] :=
  ⟨offering_idle _, rfl, rfl, rfl⟩

/-- ResetInputGivesTheResetValues and FreshHasTheListedWriters, on a faulted engine; ResetDuringACommandAbandonsIt, in the
middle of a SETSTATE. -/
theorem witness_reset_input :
    { faulted [] with rst := true }.rst = true ∧
    ((offering [9]).holdForPayload [2, 1]).taken = [2, 1] ∧
    { (offering []).holdForPayload [2, 1] with cmd := [1] }.cmd = [1] := by decide

/-- SetstateResult and Setlen64Result while FRESH = 1. -/
theorem witness_fresh : (offering []).fresh = true := by decide

/-- AbsorbCornerCases, a state and data for each clause. -/
theorem witness_absorb_corners :
    (offering []).live.bufLen = 0 ∧ (List.replicate 64 (0 : Byte)).length = 64 * 1 ∧
    (holding [1, 2, 3] []).live.bufLen.val ≠ 0 ∧
    (List.replicate 61 (0 : Byte)).length = 64 - (holding [1, 2, 3] []).live.bufLen.val ∧
    (List.replicate 60 (0 : Byte)).length < 64 - (holding [1, 2, 3] []).live.bufLen.val ∧
    (List.replicate 16777215 (0 : Byte)).length = 16777215 := by
  refine ⟨by decide, by decide, by decide, by decide, by decide, List.length_replicate⟩

/-- AbsorbWritesBufOnlyAtTopUpAndTail: with three bytes buffered and two absorbed, position 5 is outside both. -/
theorem witness_buf_outside :
    ¬ ((holding [1, 2, 3] []).live.bufLen.val ≠ 0 ∧ (holding [1, 2, 3] []).live.bufLen.val ≤ 5 ∧
      5 < (holding [1, 2, 3] []).live.bufLen.val + 2) ∧
    ¬ (((holding [1, 2, 3] []).live.bufLen.val = 0 ∨ 64 ≤ (holding [1, 2, 3] []).live.bufLen.val + 2) ∧
      5 < ((holding [1, 2, 3] []).live.bufLen.val + 2) % 64) := by decide

/-- AbsorbByteSerialEquivalence: its last clause. -/
theorem witness_some_byte : ([0x61] : List Byte) ≠ [] := by decide

/-- FinalizeIsAPureFunctionOfTheLiveState, at r = 55 and r = 56, the two sides of the padding branch. -/
theorem witness_finalize_lengths :
    (holding (List.replicate 55 0) []).live.totalLen.toNat % 64 = (holding (List.replicate 55 0) []).live.bufLen.val ∧
    (holding (List.replicate 55 0) []).live.bufLen.val = 55 ∧
    (holding (List.replicate 56 0) []).live.totalLen.toNat % 64 = (holding (List.replicate 56 0) []).live.bufLen.val ∧
    (holding (List.replicate 56 0) []).live.bufLen.val = 56 := by decide

/-- PadAssertExactlyWhenLengthsDisagree, a state of each kind. -/
theorem witness_pad_assert :
    (offering []).fault = false ∧ (offering []).live.bufLen.val = (offering []).live.totalLen.toNat % 64 ∧
    { offering [] with live := { StateSet.reset with totalLen := 1 } }.live.bufLen.val ≠
      { offering [] with live := { StateSet.reset with totalLen := 1 } }.live.totalLen.toNat % 64 := by decide

/-- PaddingReachesFiftySix, the two branches at their ends. -/
theorem witness_padding_branches :
    (0 : DWord).toNat % 64 < 56 ∧ (55 : DWord).toNat % 64 < 56 ∧ 56 ≤ (56 : DWord).toNat % 64 ∧
    56 ≤ (63 : DWord).toNat % 64 := by decide

/-- BitLengthSuffix, DigestBytesAreBigEndian, RotationMovesBits, RoundConstants, RoundFunctionsBitByBit: indices in range. -/
theorem witness_indices :
    7 < 8 ∧ (4 < 5 ∧ 3 < 4) ∧ (0 < 31 ∧ 31 < 32) ∧
    (19 ≤ 19 ∧ (20 ≤ 39 ∧ 39 ≤ 39) ∧ (40 ≤ 59 ∧ 59 ≤ 59) ∧ 60 ≤ 79 ∧ 79 ≤ 79) := by decide

/-- ScheduleWords, CompressIsEightyRoundsAndFeedForward, SumisChainsWithSum: a 64-byte block. -/
theorem witness_block : (List.replicate 64 (0x61 : Byte)).length = 64 ∧ 15 < 16 ∧ (16 ≤ 16 ∧ 79 < 80) := by decide

/-- LiveRegistersHaveTheListedWriters: a step that changes TOTALLEN, and nothing but a command does. -/
theorem witness_live_change :
    nextIs (step (offering [5])) (fun t => decide (t.live.totalLen ≠ (offering [5]).live.totalLen)) = true ∧
    (offering [5]).rst = false := by decide

/-- UnspecifiedStateIsUnobservable: two different states that differ in stale bytes only. -/
theorem witness_same_visible :
    SameVisible (offering []) { offering [] with live := { StateSet.reset with buf := Vector.replicate 64 0xFF } } ∧
    offering [] ≠ { offering [] with live := { StateSet.reset with buf := Vector.replicate 64 0xFF } } :=
  ⟨⟨⟨rfl, rfl, rfl, rfl⟩, rfl, rfl, rfl, rfl, rfl, rfl, rfl, rfl, rfl⟩, by decide⟩

/-- SumComputesSha1: `SUM "abc"` on an idle engine, with one more word offered. -/
theorem witness_sum :
    assemble (sumCommands [0x61, 0x62, 0x63]) = some [0x00000001, 0x00000303, 0x61626300, 0x00000004] ∧
    (offering ([0x00000001, 0x00000303, 0x61626300, 0x00000004] ++ [9])).idle ∧
    (offering ([0x00000001, 0x00000303, 0x61626300, 0x00000004] ++ [9])).cmd =
      [0x00000001, 0x00000303, 0x61626300, 0x00000004] ++ [9] := ⟨rfl, offering_idle _, rfl⟩

end Sys2Proof.Tests
end

section
/-! SUPPORT. The step on the words of one command: what it runs when they are all there (spec R12, R73, R203), and that
it may wait for them in between (R251). -/

namespace Sys2Proof.Machine

/-- A command that comes too late raises SEQUENCE_ERROR by its own meaning as well (R101, R104). -/
theorem exec_outOfSequence {i : Instr} {s : State} (h : outOfSequence i.header s.fresh = true) :
    exec i s = .next (s.enterFault .sequenceError) := by
  cases i with
  | setstate p0 p1 p2 p3 p4 => exact execSetstate_late (by simpa [Instr.header, outOfSequence] using h) p0 p1 p2 p3 p4
  | setlen64 => exact execSetlen64_late (by simpa [Instr.header, outOfSequence] using h)
  | reset | absorb data | finalize => simp [Instr.header, outOfSequence] at h

/-- Settles O6: a late command faults the same way before its payload is read and in its own meaning, and a command in
sequence is run by `takeCommand` on the words the decoder takes. -/
theorem stepRunsTheDecodedCommand : Obligations.StepRunsTheDecodedCommand := by
  intro s i rest hr hf hb hd
  obtain ⟨hdr, tail, k, hs, hk, hl, hi, hrest⟩ := decode_eq_ok hd
  have hik : i.header = k := by rw [hi, assemble_header hl]
  rw [step_takeCommand hr hf hb hs, hik, hs, List.tail_cons]
  cases hseq : outOfSequence k s.fresh with
  | true =>
    have hlate : outOfSequence i.header (s.consumeTo tail).fresh = true := by rw [hik]; exact hseq
    rw [takeCommand_late hk hseq, if_pos rfl, exec_outOfSequence hlate]
  | false => rw [takeCommand_run hk hseq hl, if_neg Bool.false_ne_true, hi, hrest]

/-- A command in sequence runs with all its words consumed. -/
theorem step_inSequence {s : State} {i : Instr} {rest : List Word} (hr : s.rst = false) (hf : s.fault = false)
    (hb : s.rspBuf = []) (hd : decode s.stream = .ok (i, rest)) (hseq : outOfSequence i.header s.fresh = false) :
    step s = exec i (s.consumeTo rest) := by
  rw [stepRunsTheDecodedCommand s i rest hr hf hb hd, hseq, if_neg Bool.false_ne_true]

/-- The first piece of a command's words, when it is short of payload: the command's header and fewer payload words than
it announces. -/
theorem decode_missing_prefix {first second rest : List Word} {i : Instr}
    (hd : decode (first ++ second) = .ok (i, rest)) (hm : decode first = .error .payloadMissing) :
    ∃ hdr got, first = hdr :: got ∧ decodeHeader hdr = .ok i.header ∧ got.length < i.header.payloadWords := by
  obtain ⟨hdr, tail, k, hs, hk, hl, hi, -⟩ := decode_eq_ok hd
  have hik : i.header = k := by rw [hi, assemble_header hl]
  cases first with
  | nil => cases hm
  | cons h got =>
    obtain ⟨rfl, -⟩ := List.cons.inj hs
    refine ⟨h, got, rfl, hik ▸ hk, ?_⟩
    by_contra hge
    rw [decode_cons_ok hk (by rw [← hik]; omega)] at hm
    cases hm

/-- Settles O17: the first step holds the words it took, and with the second piece offered the stream is the whole
command again, which the step runs with all its words consumed. -/
theorem payloadArrivingInPiecesRunsTheSameCommand : Obligations.PayloadArrivingInPiecesRunsTheSameCommand := by
  intro s first second rest i ⟨hr, hf, ht, hb⟩ hd hm hseq
  obtain ⟨hdr, got, rfl, hk, hlt⟩ := decode_missing_prefix hd hm
  refine ⟨s.holdForPayload (hdr :: got), ?_, rfl, ?_⟩
  · calc step { s with cmd := hdr :: got }
      _ = takeCommand hdr got { s with cmd := hdr :: got } := step_idle ⟨hr, hf, ht, hb⟩ rfl
      _ = .next (s.holdForPayload (hdr :: got)) := takeCommand_hold hk hseq hlt
  · have hall : decode { s with cmd := hdr :: got ++ second }.stream = .ok (i, rest) := by
      simpa [State.stream, ht] using hd
    calc step { s.holdForPayload (hdr :: got) with cmd := second }
      _ = exec i (s.consumeTo rest) := step_inSequence hr hf hb hd hseq
      _ = step { s with cmd := hdr :: got ++ second } := .symm (step_inSequence hr hf hb hall hseq)

end Sys2Proof.Machine
end

section
/-! SUPPORT. What a command can do (`exec_effect`), the effect on the live registers of a step (`step_live_cases`), and
that every step answers unless the engine is halted: the proofs about the state cite these. -/

namespace Sys2Proof.Machine

/-! ### The effect of a command -/

/-- Everything the meaning of a command can answer: the command's own writes (R100, R101, R104, R121, R141), or the fault
entry of a late command (R203) or of a copy that is not full (R146). -/
inductive Effect (s : State) : Instr → State → Prop where
  | reset : Effect s .reset { s with live := { s.live with h := iv, bufLen := 0, totalLen := 0 }, fresh := true }
  | setstate (p0 p1 p2 p3 p4 : Word) : s.fresh = true →
      Effect s (.setstate p0 p1 p2 p3 p4) { s with live := { s.live with h := ⟨p0, p1, p2, p3, p4⟩ } }
  | absorb (data : List Byte) :
      Effect s (.absorb data) { s.putLive (s.lane.absorbInto data) with fresh := false }
  | finalize : s.live.bufLen.val = s.live.totalLen.toNat % 64 →
      Effect s .finalize ((s.putCopy s.paddedCopy).respond s.paddedCopy.set.h.words)
  | padAssert : s.live.bufLen.val ≠ s.live.totalLen.toNat % 64 →
      Effect s .finalize ((s.putCopy s.paddedCopy).enterFault .padAssert)
  | setlen64 : s.fresh = true → Effect s .setlen64 { s with live := { s.live with totalLen := 64 } }
  | late {i : Instr} : outOfSequence i.header s.fresh = true → Effect s i (s.enterFault .sequenceError)

/-- The meaning of a command answers one of its effects. -/
theorem exec_effect {i : Instr} {s t : State} (h : exec i s = .next t) : Effect s i t := by
  cases hseq : outOfSequence i.header s.fresh with
  | true =>
    rw [exec_outOfSequence hseq] at h
    cases h; exact .late hseq
  | false =>
    cases i with
    | reset => cases h; exact .reset
    | setstate p0 p1 p2 p3 p4 =>
      have hf : s.fresh = true := by simpa [Instr.header, outOfSequence] using hseq
      cases (execSetstate_fresh hf p0 p1 p2 p3 p4).symm.trans h
      exact .setstate p0 p1 p2 p3 p4 hf
    | absorb data => cases h; exact .absorb data
    | finalize =>
      by_cases hfull : s.paddedCopy.set.bufLen.val = 0
      · cases (execFinalize_full hfull).symm.trans h
        exact .finalize ((paddedCopy_bufLen s).mp hfull)
      · cases (execFinalize_notFull hfull).symm.trans h
        exact .padAssert (mt (paddedCopy_bufLen s).mpr hfull)
    | setlen64 =>
      have hf : s.fresh = true := by simpa [Instr.header, outOfSequence] using hseq
      cases (execSetlen64_fresh hf).symm.trans h
      exact .setlen64 hf

/-- With the reset input released, a step leaves the live registers, or it runs the command that the words on the channel
decode to. -/
theorem step_live_cases {s t : State} (h : step s = .next t) (hr : s.rst = false) :
    t.live = s.live ∨ ∃ i rest, decode s.stream = .ok (i, rest) ∧ exec i (s.consumeTo rest) = .next t := by
  cases step_next_move h with
  | resetInput hrst => rw [hr] at hrst; cases hrst
  | deliver | awaitHost | idle | illegal | late | hold => exact .inl rfl
  | run _ _ _ hs hk _ hl hx => exact .inr ⟨_, _, hs ▸ decode_cons_ok hk hl, hx⟩

/-! ### Which steps answer -/

theorem takeCommand_answers_next (hdr : Word) (ws : List Word) (s : State) :
    ∃ t, takeCommand hdr ws s = .next t := by
  cases hk : decodeHeader hdr with
  | error e => exact ⟨_, takeCommand_illegal hk ws s⟩
  | ok k =>
    cases hseq : outOfSequence k s.fresh with
    | true => exact ⟨_, takeCommand_late hk hseq ws⟩
    | false =>
      by_cases hl : ws.length < k.payloadWords
      · exact ⟨_, takeCommand_hold hk hseq hl⟩
      · rw [takeCommand_run hk hseq (Nat.not_lt.mp hl)]
        exact exec_answers_next _ _

theorem step_awaitHost {s : State} {w : Word} {rest : List Word} (hr : s.rst = false) (hf : s.fault = false)
    (hb : s.rspBuf = w :: rest) (hy : s.rspReady = false) : step s = .next s := by
  simp [step, hr, hf, runEngine, hb, offerResponse, hy]

theorem step_noWord {s : State} (hr : s.rst = false) (hf : s.fault = false) (hb : s.rspBuf = [])
    (hs : s.stream = []) : step s = .next s := by
  simp [step, hr, hf, runEngine, hb, fetchCommand, hs]

/-- A running engine has an enabled step (R204). -/
theorem step_running_answers_next {s : State} (hr : s.rst = false) (hf : s.fault = false) :
    ∃ t, step s = .next t := by
  cases hb : s.rspBuf with
  | cons w rest =>
    cases hy : s.rspReady with
    | true => exact ⟨_, step_deliver hr hf hb hy⟩
    | false => exact ⟨_, step_awaitHost hr hf hb hy⟩
  | nil =>
    cases hs : s.stream with
    | nil => exact ⟨_, step_noWord hr hf hb hs⟩
    | cons hdr ws =>
      rw [step_takeCommand hr hf hb hs]
      exact takeCommand_answers_next hdr ws s

/-- A step answers a next state, or the engine is faulted and stops with its cause; no step is refused. -/
theorem step_next_or_halted (s : State) :
    (∃ t, step s = .next t) ∨ (s.fault = true ∧ step s = .fault (.halted s.cause)) := by
  cases hr : s.rst with
  | true => exact .inl ⟨_, step_resetInput hr⟩
  | false =>
    cases hf : s.fault with
    | true => exact .inr ⟨rfl, step_halted hr hf⟩
    | false => exact .inl (step_running_answers_next hr hf)

/-! ### Host actions and runs -/

section HostActions

variable (s : State) (a : HostAction)

/-- A host action changes the engine's inputs only. -/
@[simp] theorem host_live : (s.host a).live = s.live := by cases a <;> rfl
@[simp] theorem host_fresh : (s.host a).fresh = s.fresh := by cases a <;> rfl
@[simp] theorem host_fault : (s.host a).fault = s.fault := by cases a <;> rfl
@[simp] theorem host_cause : (s.host a).cause = s.cause := by cases a <;> rfl
@[simp] theorem host_taken : (s.host a).taken = s.taken := by cases a <;> rfl
@[simp] theorem host_rspBuf : (s.host a).rspBuf = s.rspBuf := by cases a <;> rfl

/-- Only driving it high asserts the reset input. -/
theorem host_rst_released (h : s.rst = false) (ha : a ≠ .setRst true) : (s.host a).rst = false := by
  cases a with
  | offer w => exact h
  | setRspReady r => exact h
  | setRst r => cases r with
    | true => exact absurd rfl ha
    | false => rfl

end HostActions

theorem systemRun_host (a : HostAction) (es : List Event) (s : State) :
    systemRun (.host a :: es) s = systemRun es (s.host a) := rfl

theorem systemRun_engine_next {s t : State} (es : List Event) (h : step s = .next t) :
    systemRun (.engine :: es) s = systemRun es t := by
  simp [systemRun, systemStep, h]

theorem systemRun_engine_fault {s : State} {r : Fault} (es : List Event) (h : step s = .fault r) :
    systemRun (.engine :: es) s = .fault r := by
  simp [systemRun, systemStep, h]

/-- What the host and the engine both keep holds along every run: of the state a run ends in, and of the faulted state in
which a run stops. -/
theorem systemRun_keeps {P : State → Prop} (hhost : ∀ s a, P s → P (s.host a))
    (hstep : ∀ s t, P s → step s = .next t → P t) (es : List Event) (s : State) (hs : P s) :
    (∃ t, systemRun es s = .next t ∧ P t) ∨
    ∃ u, systemRun es s = .fault (.halted u.cause) ∧ P u ∧ u.fault = true := by
  induction es generalizing s with
  | nil => exact .inl ⟨s, rfl, hs⟩
  | cons e es ih =>
    cases e with
    | host a => exact ih (s.host a) (hhost s a hs)
    | engine =>
      obtain ⟨t, ht⟩ | ⟨hf, hstop⟩ := step_next_or_halted s
      · rw [systemRun_engine_next es ht]
        exact ih t (hstep s t hs ht)
      · exact .inr ⟨s, systemRun_engine_fault es hstop, hs, hf⟩

end Sys2Proof.Machine
end

section
/-! SUPPORT. The invariant of the reachable states (spec R28, R37, R39, R40, R152, R204, R250, R251): every command and
every step keeps it, and so every run from reset does. -/

namespace Sys2Proof.Machine

/-- A running engine between commands has the invariant when its two length registers fit each other and FRESH. -/
theorem EngineInv.of_running {s : State} (hf : s.fault = false) (hc : s.cause = .none) (ht : s.taken = [])
    (hb : s.rspBuf.length ≤ 5) (hmod : s.live.totalLen.toNat % 64 = s.live.bufLen.val)
    (hfresh : s.fresh = true → s.live.bufLen = 0 ∧ (s.live.totalLen = 0 ∨ s.live.totalLen = 64)) : EngineInv s where
  total_mod := hmod
  fresh_empty := hfresh
  cause_iff := by simp [hf, hc]
  no_pad_assert := by simp [hc]
  rsp_bound := hb
  fault_quiet := by simp [hf]
  taken_idle := absurd ht
  taken_waits := absurd ht

/-- Raising any fault but PAD_ASSERT between commands keeps the invariant (R204). -/
theorem EngineInv.enterFault {s : State} (h : EngineInv s) (ht : s.taken = []) (hb : s.rspBuf = []) {c : Cause}
    (hnone : c ≠ .none) (hpad : c ≠ .padAssert) : EngineInv (s.enterFault c) where
  total_mod := h.total_mod
  fresh_empty := h.fresh_empty
  cause_iff := by simp [hnone]
  no_pad_assert := hpad
  rsp_bound := h.rsp_bound
  fault_quiet := fun _ => hb
  taken_idle := absurd ht
  taken_waits := absurd ht

/-- Taking the words of a command keeps the invariant. -/
theorem EngineInv.consumeTo {s : State} (h : EngineInv s) (rest : List Word) : EngineInv (s.consumeTo rest) where
  total_mod := h.total_mod
  fresh_empty := h.fresh_empty
  cause_iff := h.cause_iff
  no_pad_assert := h.no_pad_assert
  rsp_bound := h.rsp_bound
  fault_quiet := h.fault_quiet
  taken_idle := absurd rfl
  taken_waits := absurd rfl

/-- Waiting for the payload of a legal header in sequence keeps the invariant of a running engine (R251). -/
theorem EngineInv.holdForPayload {s : State} (h : EngineInv s) (hf : s.fault = false) (hb : s.rspBuf = [])
    {hdr : Word} {got : List Word} {k : Header} (hk : decodeHeader hdr = .ok k)
    (hseq : outOfSequence k s.fresh = false) (hl : got.length < k.payloadWords) :
    EngineInv (s.holdForPayload (hdr :: got)) where
  total_mod := h.total_mod
  fresh_empty := h.fresh_empty
  cause_iff := h.cause_iff
  no_pad_assert := h.no_pad_assert
  rsp_bound := h.rsp_bound
  fault_quiet := h.fault_quiet
  taken_idle := fun _ => ⟨hf, hb⟩
  taken_waits := fun _ => by simp [awaitsPayload, hk, hseq, hl]

/-- A host action keeps the invariant, which says nothing of the engine's inputs. -/
theorem EngineInv.host {s : State} (h : EngineInv s) (a : HostAction) : EngineInv (s.host a) where
  total_mod := by simpa using h.total_mod
  fresh_empty := by simpa using h.fresh_empty
  cause_iff := by simpa using h.cause_iff
  no_pad_assert := by simpa using h.no_pad_assert
  rsp_bound := by simpa using h.rsp_bound
  fault_quiet := by simpa using h.fault_quiet
  taken_idle := by simpa using h.taken_idle
  taken_waits := by simpa using h.taken_waits

/-- ABSORB_INTO keeps TOTALLEN mod 64 = BUFLEN (R39): both count the same bytes, and 64 divides 2^64. -/
theorem absorbInto_total_mod {l : Lane} (h : l.set.totalLen.toNat % 64 = l.set.bufLen.val) (data : List Byte) :
    (l.absorbInto data).set.totalLen.toNat % 64 = (l.absorbInto data).set.bufLen.val := by
  rw [absorbInto_bufLen, (absorbInto_spec l data).1, BitVec.toNat_add, BitVec.toNat_ofNat]
  omega

/-- A command run on a running engine between commands keeps the invariant; PAD_ASSERT cannot come, because TOTALLEN mod 64
is BUFLEN (R152). -/
theorem exec_keeps_invariant {i : Instr} {s t : State} (h : EngineInv s) (hf : s.fault = false)
    (ht : s.taken = []) (hb : s.rspBuf = []) (hx : exec i s = .next t) : EngineInv t := by
  have hc : s.cause = .none := h.cause_iff.mpr hf
  have hb5 : s.rspBuf.length ≤ 5 := h.rsp_bound
  cases exec_effect hx with
  | reset => exact .of_running hf hc ht hb5 rfl fun _ => ⟨rfl, .inl rfl⟩
  | setstate => exact .of_running hf hc ht hb5 h.total_mod h.fresh_empty
  | absorb data => exact .of_running hf hc ht hb5 (absorbInto_total_mod h.total_mod data) nofun
  | finalize => exact .of_running hf hc ht (by simp [hb]) h.total_mod h.fresh_empty
  | padAssert hne => exact absurd h.total_mod.symm hne
  | setlen64 hfresh =>
    have hempty : s.live.bufLen = 0 := (h.fresh_empty hfresh).1
    exact .of_running hf hc ht hb5 (by simp [hempty]) fun _ => ⟨hempty, .inr rfl⟩
  | late => exact h.enterFault ht hb nofun nofun

/-- Settles O46, move by move: a response is untaken only between commands, a rejected or late header enters the fault
state, a held header is legal and in sequence, and a command that runs keeps the invariant. -/
theorem stepKeepsTheInvariant : Obligations.StepKeepsTheInvariant := by
  intro s t h hstep
  cases step_next_move hstep with
  | resetInput => exact .of_running rfl rfl rfl (Nat.zero_le 5) rfl fun _ => ⟨rfl, .inl rfl⟩
  | awaitHost | idle => exact h
  | deliver _ hf hb =>
    have hbound := h.rsp_bound
    rw [hb, List.length_cons] at hbound
    have ht : s.taken = [] := by
      by_contra hne
      exact List.cons_ne_nil _ _ (hb.symm.trans (h.taken_idle hne).2)
    exact .of_running hf (h.cause_iff.mpr hf) ht (by simp; omega) h.total_mod h.fresh_empty
  | illegal _ _ hb | late _ _ hb => exact (h.consumeTo _).enterFault rfl hb nofun nofun
  | hold _ hf hb _ hk hseq hl => exact h.holdForPayload hf hb hk hseq hl
  | run _ hf hb _ _ _ _ hx => exact exec_keeps_invariant (h.consumeTo _) hf rfl hb hx

/-- Settles O45: after reset the engine is running, with nothing counted and nothing buffered. -/
theorem resetStateMeetsTheInvariant : Obligations.ResetStateMeetsTheInvariant :=
  .of_running rfl rfl rfl (Nat.zero_le 5) rfl fun _ => ⟨rfl, .inl rfl⟩

/-- With the invariant, the cause of a faulted engine is one of the two a command can raise. -/
theorem EngineInv.cause_of_fault {s : State} (h : EngineInv s) (hf : s.fault = true) :
    s.cause = .illegalCommand ∨ s.cause = .sequenceError := by
  have hiff := h.cause_iff
  have hpad := h.no_pad_assert
  cases hc : s.cause with
  | none => simp [hc, hf] at hiff
  | illegalCommand => exact .inl rfl
  | sequenceError => exact .inr rfl
  | padAssert => exact absurd hc hpad

/-- Settles O47: the invariant holds at reset and every host action and step keeps it, so a run ends in a state that has
it or stops in a faulted one that has it. -/
theorem everyReachableStateMeetsTheInvariant : Obligations.EveryReachableStateMeetsTheInvariant := by
  rintro es _ rfl
  obtain ⟨t, ht, hinv⟩ | ⟨u, hu, hinv, hf⟩ :=
    systemRun_keeps (fun _ a h => h.host a) stepKeepsTheInvariant es _ resetStateMeetsTheInvariant
  · rw [ht]; exact hinv
  · rw [hu]
    simpa using hinv.cause_of_fault hf

end Sys2Proof.Machine
end

section
/-! SUPPORT. The status register and its writers (spec R27 to R31, R44, R204), and the writers of the live registers (R20,
R23 to R25). -/

namespace Sys2Proof.Machine

/-! ### The fault state -/

/-- Settles O12, by induction over the schedule: a host action short of asserting the reset input changes none of the
registers, and the first engine step is not enabled. -/
theorem faultStaysUntilTheResetInput : Obligations.FaultStaysUntilTheResetInput := by
  intro es
  induction es with
  | nil =>
    intro s hf _ _
    refine ⟨?_, nofun⟩
    rintro t ⟨⟩
    exact ⟨hf, rfl, rfl, rfl⟩
  | cons e es ih =>
    intro s hf hr hno
    obtain ⟨hhead, htail⟩ := not_or.mp (mt List.mem_cons.mpr hno)
    cases e with
    | host a =>
      have ha : a ≠ .setRst true := fun h => hhead (h ▸ rfl)
      have hrest := ih (s.host a) (by simpa using hf) (host_rst_released s a hr ha) htail
      simpa [systemRun_host] using hrest
    | engine => simp [systemRun_engine_fault es (step_halted hr hf)]

/-- A command leaves FAULT and CAUSE, or raises a fault with its cause (R28). -/
theorem exec_status {i : Instr} {s t : State} (h : exec i s = .next t) :
    (t.fault = s.fault ∧ t.cause = s.cause) ∨ (t.fault = true ∧ t.cause ≠ .none) := by
  cases exec_effect h with
  | reset | setstate | absorb | finalize | setlen64 => exact .inl ⟨rfl, rfl⟩
  | padAssert | late => exact .inr ⟨rfl, nofun⟩

/-- Settles O13, move by move: only the reset input, a header that is rejected or late, and a command that raises a fault
write FAULT and CAUSE. -/
theorem faultAndCauseChangeOnlyOnFaultOrReset : Obligations.FaultAndCauseChangeOnlyOnFaultOrReset := by
  intro s t h
  cases step_next_move h with
  | resetInput hr => exact .inr (.inl ⟨hr, rfl, rfl⟩)
  | deliver | awaitHost | idle | hold => exact .inl ⟨rfl, rfl⟩
  | illegal _ hf | late _ hf => exact .inr (.inr ⟨hf, rfl, nofun⟩)
  | run _ hf _ _ _ _ _ hx =>
    obtain hkept | hraised := exec_status hx
    · exact .inl hkept
    · exact .inr (.inr ⟨hf, hraised⟩)

/-! ### STATUS -/

/-- STATUS bit by bit: FAULT, then the three bits of the code of CAUSE, then FRESH, then zeros (R28, R31). -/
theorem status_getLsbD (s : State) (i : Nat) : s.status.getLsbD i =
    if i < 1 then (BitVec.ofBool s.fault).getLsbD i
    else if i < 4 then s.cause.code.getLsbD (i - 1)
    else (BitVec.ofBool s.fresh).getLsbD (i - 4) := by
  have hbits : s.status.getLsbD i =
      ((0 : BitVec 27) ++ BitVec.ofBool s.fresh ++ s.cause.code ++ BitVec.ofBool s.fault).getLsbD i := rfl
  simp only [hbits, BitVec.getLsbD_append, BitVec.ofNat_eq_ofNat, BitVec.getLsbD_zero]
  grind

/-- Settles O14: each read of STATUS falls in one of its fields. -/
theorem statusShowsFaultCauseAndFresh : Obligations.StatusShowsFaultCauseAndFresh := by
  intro s
  refine ⟨by simpa using status_getLsbD s 0, ?_, by simpa using status_getLsbD s 4, ?_, rfl, rfl, rfl, rfl⟩
  · ext i hi
    simp [status_getLsbD, show 1 + i < 4 by omega, BitVec.getLsbD_eq_getElem hi]
  · ext i hi
    simp [status_getLsbD, show ¬ 5 + i < 4 by omega, show 5 + i - 4 ≠ 0 by omega]

/-- Settles O20: every listed register of the reset state computes to its listed value. -/
theorem resetStateHasTheListedValues : Obligations.ResetStateHasTheListedValues :=
  ⟨rfl, rfl, rfl, rfl, rfl, rfl, rfl, rfl, rfl⟩

/-! ### Writers -/

/-- Settles O43: every command answers; RESET and ABSORB write FRESH, the others leave it, whether they run or come late,
and the reset input sets it. -/
theorem freshHasTheListedWriters : Obligations.FreshHasTheListedWriters := by
  refine ⟨fun i s => ?_, fun s hr => ⟨_, step_resetInput hr, rfl⟩⟩
  obtain ⟨t, ht⟩ := exec_answers_next i s
  refine ⟨t, ht, ?_⟩
  cases exec_effect ht with
  | reset | setstate | absorb | finalize | padAssert | setlen64 => rfl
  | late hseq => cases i with
    | setstate | setlen64 => rfl
    | reset | absorb | finalize => cases hseq

/-- Settles O44: a step that changes a live register ran a command, and each command's effect leaves the registers of which
it is no listed writer. -/
theorem liveRegistersHaveTheListedWriters : Obligations.LiveRegistersHaveTheListedWriters := by
  intro s t h hr listed
  obtain hlive | ⟨i, rest, hd, hx⟩ := step_live_cases h hr
  · simp [hlive]
  · have ran (p : Instr → Bool) (hp : p i = true) : listed p := ⟨i, rest, hd, hp⟩
    cases exec_effect hx with
    | reset => exact ⟨fun _ => ran _ rfl, absurd rfl, fun _ => ran _ rfl, fun _ => ran _ rfl⟩
    | setstate => exact ⟨fun _ => ran _ rfl, absurd rfl, absurd rfl, absurd rfl⟩
    | absorb data => exact ⟨fun _ => ran _ rfl, fun _ => ran _ rfl, fun _ => ran _ rfl, fun _ => ran _ rfl⟩
    | setlen64 => exact ⟨absurd rfl, absurd rfl, absurd rfl, fun _ => ran _ rfl⟩
    | finalize | padAssert | late => exact ⟨absurd rfl, absurd rfl, absurd rfl, absurd rfl⟩

end Sys2Proof.Machine
end

section
/-! SUPPORT. What the spec leaves unspecified is unobservable (spec R26, R33 to R36): each operation on two states that look
the same gives two that look the same, and so does every command, step and run. -/

namespace Sys2Proof.Machine

/-! ### State sets that differ in stale bytes -/

/-- The stream an ABSORB makes reads the valid bytes only (R125). -/
theorem SameValid.streamWith_eq {S T : StateSet} (h : SameValid S T) (data : List Byte) :
    S.streamWith data = T.streamWith data := by
  obtain ⟨-, -, -, hvalid⟩ := h
  rw [StateSet.streamWith, StateSet.streamWith, hvalid]

/-- ABSORB_INTO reads no stale byte: its result is told by the accumulator, the count and the stream (R127). -/
theorem SameValid.absorbInto {l m : Lane} (h : SameValid l.set m.set) (data : List Byte) :
    SameValid (l.absorbInto data).set (m.absorbInto data).set := by
  have hstream := h.streamWith_eq data
  obtain ⟨hh, hlen, htotal, -⟩ := h
  obtain ⟨ltotal, lh, lvalid⟩ := absorbInto_spec l data
  obtain ⟨mtotal, mh, mvalid⟩ := absorbInto_spec m data
  refine ⟨?_, Fin.ext ?_, ?_, ?_⟩
  · rw [lh, mh, hh, hstream]
  · rw [absorbInto_bufLen, absorbInto_bufLen, hlen]
  · rw [ltotal, mtotal, htotal]
  · rw [lvalid, mvalid, hstream]

/-- The padded copy of FINALIZE reads no stale byte (R143, R149). -/
theorem SameVisible.paddedCopy {s t : State} (h : SameVisible s t) : SameValid s.paddedCopy.set t.paddedCopy.set := by
  have hlive : SameValid s.lane.set t.lane.set := h.live
  obtain ⟨-, -, htotal, -⟩ := h.live
  rw [State.paddedCopy, State.paddedCopy, htotal]
  exact (hlive.absorbInto _).absorbInto _

/-! ### The operations -/

section Operations

variable {s t : State} (h : SameVisible s t)
include h

theorem SameVisible.putCopy (l m : Lane) : SameVisible (s.putCopy l) (t.putCopy m) := { h with }

theorem SameVisible.enterFault (c : Cause) : SameVisible (s.enterFault c) (t.enterFault c) :=
  { h with fault := rfl, cause := rfl }

theorem SameVisible.consumeTo (rest : List Word) : SameVisible (s.consumeTo rest) (t.consumeTo rest) :=
  { h with taken := rfl, cmd := rfl }

theorem SameVisible.holdForPayload (got : List Word) : SameVisible (s.holdForPayload got) (t.holdForPayload got) :=
  { h with taken := rfl, cmd := rfl }

theorem SameVisible.respond (ws : List Word) : SameVisible (s.respond ws) (t.respond ws) :=
  { h with rspBuf := by simp [h.rspBuf] }

theorem SameVisible.deliver (w : Word) (rest : List Word) : SameVisible (s.deliver w rest) (t.deliver w rest) :=
  { h with rspBuf := rfl, rspOut := by simp [h.rspOut] }

theorem SameVisible.resetInput : SameVisible s.resetInput t.resetInput where
  live := ⟨rfl, rfl, rfl, rfl⟩
  fresh := rfl
  fault := rfl
  cause := rfl
  taken := rfl
  rspBuf := rfl
  cmd := h.cmd
  rspReady := h.rspReady
  rst := h.rst
  rspOut := h.rspOut

theorem SameVisible.host (a : HostAction) : SameVisible (s.host a) (t.host a) := by
  cases a with
  | offer w => exact { h with cmd := by simp [h.cmd] }
  | setRspReady r => exact { h with rspReady := rfl }
  | setRst r => exact { h with rst := rfl }

theorem SameVisible.stream_eq : s.stream = t.stream := by
  rw [State.stream, State.stream, h.taken, h.cmd]

end Operations

/-! ### Commands, steps and runs -/

/-- Two outcomes that look the same are two next states that do, or one and the same stop. -/
theorem SameOutcome.next_or_eq {o p : Host.Outcome State Fault Refusal} (h : SameOutcome o p) :
    (∃ s t, o = .next s ∧ p = .next t ∧ SameVisible s t) ∨ (∃ r, o = .fault r ∧ p = .fault r) ∨
    ∃ r, o = .refused r ∧ p = .refused r := by
  cases o with
  | next s => cases p with
    | next t => exact .inl ⟨s, t, rfl, rfl, h⟩
    | fault r | refused r => exact h.elim
  | fault a => cases p with
    | fault b => obtain rfl : a = b := h; exact .inr (.inl ⟨a, rfl, rfl⟩)
    | next t | refused r => exact h.elim
  | refused a => cases p with
    | refused b => obtain rfl : a = b := h; exact .inr (.inr ⟨a, rfl, rfl⟩)
    | next t | fault r => exact h.elim

/-- A command on two states that look the same has effects that do: what it reads is visible. -/
theorem exec_sameOutcome {s t : State} (h : SameVisible s t) (i : Instr) : SameOutcome (exec i s) (exec i t) := by
  cases hseq : outOfSequence i.header s.fresh with
  | true =>
    rw [exec_outOfSequence hseq, exec_outOfSequence (h.fresh ▸ hseq)]
    exact h.enterFault .sequenceError
  | false =>
    obtain ⟨hh, hlen, htotal, hvalid⟩ := h.live
    cases i with
    | reset => exact { h with live := ⟨rfl, rfl, rfl, by simp [StateSet.validBytes]⟩, fresh := rfl }
    | setstate p0 p1 p2 p3 p4 =>
      have hf : s.fresh = true := by simpa [Instr.header, outOfSequence] using hseq
      simp only [exec, execSetstate_fresh hf, execSetstate_fresh (h.fresh ▸ hf)]
      exact { h with live := ⟨rfl, hlen, htotal, hvalid⟩ }
    | absorb data =>
      have hlive : SameValid s.lane.set t.lane.set := h.live
      exact { h with live := hlive.absorbInto data, fresh := rfl }
    | finalize =>
      obtain ⟨hdigest, hcopyLen, -, -⟩ := h.paddedCopy
      by_cases hfull : t.paddedCopy.set.bufLen.val = 0
      · simp only [exec, execFinalize_full hfull, execFinalize_full (hcopyLen ▸ hfull), hdigest]
        exact (h.putCopy _ _).respond _
      · simp only [exec, execFinalize_notFull hfull, execFinalize_notFull (hcopyLen ▸ hfull)]
        exact (h.putCopy _ _).enterFault .padAssert
    | setlen64 =>
      have hf : s.fresh = true := by simpa [Instr.header, outOfSequence] using hseq
      simp only [exec, execSetlen64_fresh hf, execSetlen64_fresh (h.fresh ▸ hf)]
      exact { h with live := ⟨hh, hlen, rfl, hvalid⟩ }

theorem takeCommand_sameOutcome {s t : State} (h : SameVisible s t) (hdr : Word) (ws : List Word) :
    SameOutcome (takeCommand hdr ws s) (takeCommand hdr ws t) := by
  cases hk : decodeHeader hdr with
  | error e =>
    rw [takeCommand_illegal hk, takeCommand_illegal hk]
    exact (h.consumeTo ws).enterFault .illegalCommand
  | ok k =>
    cases hseq : outOfSequence k s.fresh with
    | true =>
      rw [takeCommand_late hk hseq, takeCommand_late hk (h.fresh ▸ hseq)]
      exact (h.consumeTo ws).enterFault .sequenceError
    | false =>
      by_cases hl : ws.length < k.payloadWords
      · rw [takeCommand_hold hk hseq hl, takeCommand_hold hk (h.fresh ▸ hseq) hl]
        exact h.holdForPayload (hdr :: ws)
      · have hge := Nat.not_lt.mp hl
        rw [takeCommand_run hk hseq hge, takeCommand_run hk (h.fresh ▸ hseq) hge]
        exact exec_sameOutcome (h.consumeTo _) _

/-- What a step does is told by the visible state: the reset input, FAULT, the untaken responses and the words of the
channel choose the case in both states alike. -/
theorem step_sameOutcome {s t : State} (h : SameVisible s t) : SameOutcome (step s) (step t) := by
  cases hr : s.rst with
  | true =>
    rw [step_resetInput hr, step_resetInput (h.rst ▸ hr)]
    exact h.resetInput
  | false =>
    have hrt : t.rst = false := h.rst ▸ hr
    cases hf : s.fault with
    | true =>
      rw [step_halted hr hf, step_halted hrt (h.fault ▸ hf), h.cause]
      rfl
    | false =>
      have hft : t.fault = false := h.fault ▸ hf
      cases hb : s.rspBuf with
      | cons w rest =>
        have hbt : t.rspBuf = w :: rest := h.rspBuf ▸ hb
        cases hy : s.rspReady with
        | true =>
          rw [step_deliver hr hf hb hy, step_deliver hrt hft hbt (h.rspReady ▸ hy)]
          exact h.deliver w rest
        | false =>
          rw [step_awaitHost hr hf hb hy, step_awaitHost hrt hft hbt (h.rspReady ▸ hy)]
          exact h
      | nil =>
        have hbt : t.rspBuf = [] := h.rspBuf ▸ hb
        cases hs : s.stream with
        | nil =>
          rw [step_noWord hr hf hb hs, step_noWord hrt hft hbt (h.stream_eq ▸ hs)]
          exact h
        | cons hdr ws =>
          rw [step_takeCommand hr hf hb hs, step_takeCommand hrt hft hbt (h.stream_eq ▸ hs)]
          exact takeCommand_sameOutcome h hdr ws

theorem systemStep_sameOutcome {s t : State} (h : SameVisible s t) (e : Event) :
    SameOutcome (systemStep s e) (systemStep t e) := by
  cases e with
  | host a => exact h.host a
  | engine => exact step_sameOutcome h

theorem systemRun_sameOutcome (es : List Event) {s t : State} (h : SameVisible s t) :
    SameOutcome (systemRun es s) (systemRun es t) := by
  induction es generalizing s t with
  | nil => exact h
  | cons e es ih =>
    simp only [systemRun]
    obtain ⟨u, v, hu, hv, huv⟩ | ⟨r, hs, ht⟩ | ⟨r, hs, ht⟩ := (systemStep_sameOutcome h e).next_or_eq
    · rw [hu, hv]; exact ih huv
    · rw [hs, ht]; rfl
    · rw [hs, ht]; rfl

/-- Settles O48: every event takes two states that look the same to outcomes that do, and the outputs are read from visible
registers. -/
theorem unspecifiedStateIsUnobservable : Obligations.UnspecifiedStateIsUnobservable := by
  intro es s t h
  refine ⟨systemRun_sameOutcome es h, ?_, ?_, ?_⟩
  · rw [State.status, State.status, h.fresh, h.cause, h.fault]
  · rw [State.cmdReady, State.cmdReady, h.rst, h.fault, h.rspBuf]
  · rw [State.rspData, State.rspData, h.rspBuf]

end Sys2Proof.Machine
end

section
/-! SUPPORT. Words as bytes: byte k of a list of words is its lane k (spec R53, R54, R147), the packing of an ABSORB's bytes
with its zero fill (R54, R84), and that a header followed by its whole payload decodes to their command (R73, R84). -/

namespace Sys2Proof.Machine

/-! ### Lanes -/

/-- Reading words big-endian puts lane k at byte k (R54); beyond the words both are 0. -/
theorem flatMap_be32bytes_getD (ws : List Word) (k : Nat) : (ws.flatMap be32bytes).getD k 0 = laneByte ws k := by
  induction ws generalizing k with
  | nil => simp [laneByte]
  | cons w ws ih =>
    match k with
    | 0 | 1 | 2 | 3 => rfl
    | k + 4 =>
      have hlane : laneByte (w :: ws) (k + 4) = laneByte ws k := by simp [laneByte]
      rw [hlane, ← ih]
      rfl

/-- Byte j of word i is lane 4i + j (R53). -/
theorem laneByte_four_mul_add (ws : List Word) (i : Nat) {j : Nat} (hj : j < 4) :
    laneByte ws (4 * i + j) = (ws.getD i 0).extractLsb' (24 - 8 * j) 8 := by
  rw [laneByte, show (4 * i + j) / 4 = i by omega, show (4 * i + j) % 4 = j by omega]

/-- Settles O37: the digest is the five words read big-endian, lane by lane. -/
theorem digestBytesAreBigEndian : Obligations.DigestBytesAreBigEndian := by
  intro x i j _ hj
  exact ⟨by simp, by rw [flatMap_be32bytes_getD, laneByte_four_mul_add _ i hj]⟩

/-- The bytes of a payload are those its first lanes hold, whatever the other lanes hold (R60). -/
theorem messageBytes_eq_of_lanes {d : List Byte} {ws : List Word} (hlen : wordsForBytes d.length ≤ ws.length)
    (hlane : ∀ k, (h : k < d.length) → laneByte ws k = d[k]) : messageBytes d.length ws = d := by
  refine List.ext_getElem (messageBytes_length _ _ hlen) fun k _ hk => ?_
  have hall : k < (ws.flatMap be32bytes).length := by
    rw [flatMap_be32bytes_length]; unfold wordsForBytes at hlen; omega
  calc (messageBytes d.length ws)[k]
    _ = (ws.flatMap be32bytes)[k] := List.getElem_take
    _ = laneByte ws k := by rw [← flatMap_be32bytes_getD, List.getD_eq_getElem _ _ hall]
    _ = d[k] := hlane k hk

/-! ### Packing -/

/-- Packed words read back as the bytes and a zero fill up to the end of the last word (R54, R84). -/
theorem packWords_flatMap_be32bytes (d : List Byte) : (packWords d).flatMap be32bytes =
    d ++ List.replicate (4 * wordsForBytes d.length - d.length) 0 := by
  induction d using packWords.induct with
  | case1 => rfl
  | case2 | case3 | case4 => simp [packWords, wordsForBytes, List.replicate]
  | case5 b0 b1 b2 b3 rest ih =>
    have hfill : 4 * wordsForBytes (rest.length + 4) - (rest.length + 4) =
        4 * wordsForBytes rest.length - rest.length := by simp only [wordsForBytes]; omega
    simp [packWords, ih, hfill]

/-- A lane of the packed words holds its byte, and 0 after the last byte. -/
theorem laneByte_packWords (d : List Byte) (k : Nat) : laneByte (packWords d) k = d.getD k 0 := by
  rw [← flatMap_be32bytes_getD, packWords_flatMap_be32bytes]
  obtain hk | hk := Nat.lt_or_ge k d.length
  · rw [List.getD_append _ _ _ _ hk]
  · rw [List.getD_append_right _ _ _ _ hk, List.getD_eq_default _ _ hk, List.getD_eq_getElem?_getD,
      List.getElem?_getD_replicate_default_eq]

/-! ### The words of a command -/

/-- The ABSORB header as a number: LEN above the opcode (R70, R71). -/
theorem absorb_word_eq (len : Nat) : (Header.absorb len).word = BitVec.ofNat 32 len <<< 8 ||| 0x03 := by
  have hshift : len % 2 ^ 24 * 2 ^ 8 = len % 2 ^ 32 * 2 ^ 8 % 2 ^ 32 := by omega
  refine BitVec.eq_of_toNat_eq ((BitVec.toNat_append _ _).trans ?_)
  simp only [BitVec.toNat_ofNat, BitVec.toNat_or, BitVec.toNat_shiftLeft, Nat.shiftLeft_eq, hshift]
  rfl

/-- A legal header and exactly the payload words it announces decode to their command (R73). -/
theorem decode_header_payload {hdr : Word} {k : Header} {payload : List Word} (hk : decodeHeader hdr = .ok k)
    (hl : payload.length = k.payloadWords) (rest : List Word) :
    decode (hdr :: payload ++ rest) = .ok (k.assemble payload, rest) := by
  rw [List.cons_append, decode_cons_ok hk (by simp [hl]), ← hl, List.take_left, List.drop_left]

/-- The encoder writes as many payload words as the header announces (R71). -/
theorem payload_length (i : Instr) : i.payload.length = i.header.payloadWords := by
  cases i with
  | absorb data => exact packWords_length data
  | reset | setstate | finalize | setlen64 => rfl

/-- A command is the one its header and payload words stand for. -/
theorem assemble_payload (i : Instr) : i.header.assemble i.payload = i := by
  cases i with
  | absorb data => exact congrArg Instr.absorb (messageBytes_packWords data)
  | reset | setstate | finalize | setlen64 => rfl

/-- Decoding undoes encoding, with any words after the command's (R84). -/
theorem decode_encode_append {i : Instr} (h : i.wellFormed = true) (rest : List Word) :
    decode (encode i ++ rest) = .ok (i, rest) := by
  rw [encode, decode_header_payload (decodeHeader_word i h) (payload_length i), assemble_payload]

/-- Settles O1: the words are the encoder's own, an ABSORB's lanes those of the packing, and decoding undoes encoding. -/
theorem decodeOfEncodeIsTheCommand : Obligations.DecodeOfEncodeIsTheCommand := by
  refine ⟨rfl, fun _ _ _ _ _ => rfl, fun d _ => ⟨?_, packWords_length d, fun k _ => laneByte_packWords d k⟩, rfl, rfl,
    fun i rest h => decode_encode_append h rest⟩
  rw [← absorb_word_eq]
  rfl

/-- Settles O2: the header announces the payload's words, and their first lanes are all the command keeps of them. -/
theorem absorbPayloadReadLaneByLane : Obligations.AbsorbPayloadReadLaneByLane := by
  intro d ws rest hd hws hlane
  rw [← absorb_word_eq, decode_header_payload (decodeHeader_absorb_word _ hd) hws, Header.assemble,
    messageBytes_eq_of_lanes hws.ge hlane]

end Sys2Proof.Machine
end

section
/-! SUPPORT. Which headers the engine rejects and what a rejected header does (spec R72, R76, R77), and that the header
tells a decoded command's length (R73, R74). -/

namespace Sys2Proof.Machine

/-- A header is rejected for a reserved opcode or a reserved ARG (R76, R77). -/
theorem decodeHeader_rejects_iff (hdr : Word) : (∃ e, decodeHeader hdr = .error e) ↔
    opcOf hdr = 0 ∨ 6 ≤ opcOf hdr ∨ (opcOf hdr ≠ 3 ∧ argOf hdr ≠ 0) := by
  rw [decodeHeader_by_fields]
  by_cases harg : argOf hdr = 0
  · simp only [harg, if_true]
    split_ifs <;> simp <;> omega
  · simp only [harg, if_false]
    split_ifs <;> simp <;> omega

/-- OPC of the header words that announce `k` (R72). -/
def opcOfHeader : Header → Nat
  | .reset => 1
  | .setstate => 2
  | .absorb _ => 3
  | .finalize => 4
  | .setlen64 => 5

/-- ARG of the header words that announce `k` (R72, R75). -/
def argOfHeader : Header → Nat
  | .absorb len => len
  | .reset => 0
  | .setstate => 0
  | .finalize => 0
  | .setlen64 => 0

/-- The header check answers `k` for the one OPC and ARG of `k`. -/
theorem decodeHeader_eq_ok_iff (hdr : Word) (k : Header) :
    decodeHeader hdr = .ok k ↔ opcOf hdr = opcOfHeader k ∧ argOf hdr = argOfHeader k := by
  rw [decodeHeader_by_fields]
  cases k <;> simp only [opcOfHeader, argOfHeader] <;> split_ifs <;> simp [*]

/-- Settles O3: a header word is told by OPC and ARG, and so is what the header check answers. -/
theorem everyHeaderHasOneOutcome : Obligations.EveryHeaderHasOneOutcome := by
  intro hdr
  have bare (n : Nat) (hn : n < 256) : opcOf hdr = n ∧ argOf hdr = 0 ↔ hdr = BitVec.ofNat 32 n := by
    rw [eq_ofNat_iff_fields hdr n (by omega), Nat.mod_eq_of_lt hn, Nat.div_eq_of_lt hn]
  exact ⟨(decodeHeader_eq_ok_iff hdr .reset).trans (bare 1 (by decide)),
    (decodeHeader_eq_ok_iff hdr .setstate).trans (bare 2 (by decide)),
    fun n => decodeHeader_eq_ok_iff hdr (.absorb n),
    (decodeHeader_eq_ok_iff hdr .finalize).trans (bare 4 (by decide)),
    (decodeHeader_eq_ok_iff hdr .setlen64).trans (bare 5 (by decide)),
    decodeHeader_rejects_iff hdr⟩

/-- The command of a legal header is well formed: LEN fits its field (R75). -/
theorem assemble_wellFormed {hdr : Word} {k : Header} {ws : List Word} (hk : decodeHeader hdr = .ok k)
    (hl : k.payloadWords ≤ ws.length) : (k.assemble (ws.take k.payloadWords)).wellFormed = true := by
  cases k with
  | absorb len =>
    have hlen : (messageBytes len (ws.take (wordsForBytes len))).length = len :=
      messageBytes_length _ _ (List.length_take_of_le hl).ge
    exact decide_eq_true (hlen.trans_le (decodeHeader_absorb_le hk))
  | reset | setstate | finalize | setlen64 => rfl

/-- Settles O4: the decoder cut the stream at the number of payload words of the command's own header. -/
theorem decodedCommandLengthIsToldByItsHeader : Obligations.DecodedCommandLengthIsToldByItsHeader := by
  intro ws rest i hd
  obtain ⟨hdr, tail, k, rfl, hk, hl, rfl, rfl⟩ := decode_eq_ok hd
  refine ⟨assemble_wellFormed hk hl, hdr, tail.take k.payloadWords, by simp, (assemble_header hl).symm ▸ hk, ?_⟩
  have hlen : (tail.take k.payloadWords).length = (k.assemble (tail.take k.payloadWords)).header.payloadWords := by
    rw [List.length_take_of_le hl, assemble_header hl]
  rw [hlen]
  cases k <;> rfl

/-- Settles O5: the decoder computes each listed outcome. -/
theorem tableWordsDecodeAsListed : Obligations.TableWordsDecodeAsListed :=
  ⟨rfl, rfl, rfl, rfl, rfl, rfl, rfl, rfl⟩

/-- An idle engine consumes a rejected header alone and writes only FAULT and CAUSE (R76, R202). -/
theorem step_idle_illegal {s : State} {hdr : Word} {ws : List Word} (hidle : s.idle) (hc : s.cmd = hdr :: ws)
    (hbad : ∃ e, decodeHeader hdr = .error e) :
    step s = .next { s with cmd := ws, fault := true, cause := .illegalCommand } := by
  obtain ⟨e, he⟩ := hbad
  rw [step_idle hidle hc, takeCommand_illegal he, consumeTo_idle hidle]
  rfl

/-- Settles O7: a header of a reserved opcode is one of the rejected headers. -/
theorem reservedOpcodeRaisesIllegalCommand : Obligations.ReservedOpcodeRaisesIllegalCommand := by
  intro s hdr ws hidle hc hopc
  exact step_idle_illegal hidle hc ((decodeHeader_rejects_iff hdr).mpr (hopc.imp_right .inl))

/-- Every opcode but that of ABSORB reserves ARG (R77). -/
theorem rejectsNonzeroArg {opc : Nat} (hopc : opc ≠ 3) : RejectsNonzeroArg opc := by
  intro s hdr ws hidle hc ho harg
  exact step_idle_illegal hidle hc ((decodeHeader_rejects_iff hdr).mpr (.inr (.inr ⟨ho ▸ hopc, harg⟩)))

/-- Settles O8: the four opcodes are not that of ABSORB, and an ABSORB header is legal with LEN = ARG. -/
theorem reservedArgRaisesIllegalCommand : Obligations.ReservedArgRaisesIllegalCommand :=
  ⟨fun _ hopc => rejectsNonzeroArg (by omega), fun hdr ho => (decodeHeader_eq_ok_iff hdr _).mpr ⟨ho, rfl⟩⟩

end Sys2Proof.Machine
end

section
/-! SUPPORT. A run over the encoded words of a list of commands is the effect of the commands in order (spec R12, R64). -/

namespace Sys2Proof.Machine

/-- A command's effect does not read or write the command channel. -/
theorem exec_consumeTo {i : Instr} {s t : State} (h : exec i s = .next t) (rest : List Word) :
    exec i (s.consumeTo rest) = .next (t.consumeTo rest) := by
  have hcopy : (s.consumeTo rest).paddedCopy = s.paddedCopy := rfl
  cases exec_effect h with
  | reset | absorb data => rfl
  | setstate p0 p1 p2 p3 p4 hf => exact execSetstate_fresh (s := s.consumeTo rest) hf p0 p1 p2 p3 p4
  | setlen64 hf => exact execSetlen64_fresh (s := s.consumeTo rest) hf
  | finalize hfull => exact execFinalize_full (hcopy ▸ (paddedCopy_bufLen s).mpr hfull)
  | padAssert hne => exact execFinalize_notFull (hcopy ▸ mt (paddedCopy_bufLen s).mp hne)
  | late hseq => exact exec_outOfSequence hseq

/-- No command clears a fault (R29). -/
theorem exec_keeps_fault {i : Instr} {s t : State} (h : exec i s = .next t) (hf : s.fault = true) : t.fault = true := by
  obtain ⟨hsame, -⟩ | ⟨hraised, -⟩ := exec_status h
  · exact hsame.trans hf
  · exact hraised

theorem execAll_cons_next {i : Instr} {s t : State} (is : List Instr) (h : exec i s = .next t) :
    execAll (i :: is) s = execAll is t := by
  simp [execAll, h]

/-- Commands that end without a fault started without one. -/
theorem execAll_fault_false {is : List Instr} {s u : State} (h : execAll is s = .next u) (hu : u.fault = false) :
    s.fault = false := by
  induction is generalizing s with
  | nil => cases h; exact hu
  | cons i is ih =>
    obtain ⟨t, ht⟩ := exec_answers_next i s
    rw [execAll_cons_next is ht] at h
    exact Bool.eq_false_iff.mpr fun hs => Bool.false_ne_true ((ih h).symm.trans (exec_keeps_fault ht hs))

/-- A command that ends without a fault was in sequence. -/
theorem exec_inSequence {i : Instr} {s t : State} (h : exec i s = .next t) (ht : t.fault = false) :
    outOfSequence i.header s.fresh = false := by
  refine Bool.eq_false_iff.mpr fun hseq => ?_
  cases (exec_outOfSequence hseq).symm.trans h
  cases ht

/-- A step at the words of a command that raises no fault is its effect, with the words after it left on the channel. -/
theorem step_encode {i : Instr} {s t : State} (hw : i.wellFormed = true) (hr : s.rst = false) (hf : s.fault = false)
    (hb : s.rspBuf = []) (hx : exec i s = .next t) (ht : t.fault = false) (rest : List Word) :
    step (s.consumeTo (encode i ++ rest)) = .next (t.consumeTo rest) := by
  have hseq : outOfSequence i.header s.fresh = false := exec_inSequence hx ht
  exact (step_inSequence (s := s.consumeTo _) hr hf hb (decode_encode_append hw rest) hseq).trans
    (exec_consumeTo hx rest)

/-- The words of commands that raise no fault, run one step a command, have the commands' effects in order and leave the
words after them. A FINALIZE stands at the end only: after it the engine gives its responses first (R250). -/
theorem systemRun_encode {is : List Instr} {s u : State} (hw : ∀ i ∈ is, i.wellFormed = true)
    (hfin : ∀ i ∈ is.dropLast, i ≠ .finalize) (hr : s.rst = false) (hb : is ≠ [] → s.rspBuf = [])
    (hx : execAll is s = .next u) (hu : u.fault = false) (rest : List Word) :
    systemRun (List.replicate is.length .engine) (s.consumeTo (is.flatMap encode ++ rest)) =
      .next (u.consumeTo rest) := by
  induction is generalizing s with
  | nil => cases hx; rfl
  | cons i is ih =>
    obtain ⟨t, ht⟩ := exec_answers_next i s
    have hf : s.fault = false := execAll_fault_false hx hu
    rw [execAll_cons_next is ht] at hx
    obtain ⟨hrst, -, -, -, -, hrsp⟩ := exec_channels ht
    have hb' : s.rspBuf = [] := hb (List.cons_ne_nil i is)
    have hstep := step_encode (hw i (by simp)) hr hf hb' ht (execAll_fault_false hx hu) (is.flatMap encode ++ rest)
    rw [List.length_cons, List.flatMap_cons, List.append_assoc, systemRun_engine_succ _ hstep]
    refine ih (fun j hj => hw j (List.mem_cons_of_mem i hj)) (fun j hj => hfin j ?_) (hrst.trans hr) (fun hne => ?_) hx
    · rw [List.dropLast_cons_of_ne_nil (by rintro rfl; cases hj)]
      exact List.mem_cons_of_mem i hj
    · rw [hrsp (hfin i (by simp [List.dropLast_cons_of_ne_nil hne])), hb']

end Sys2Proof.Machine
end

section
/-! SUPPORT. The engine against SHA-1 of a whole message (spec R81 to R83, R127, R149): what a state set says of the message
absorbed so far, the digest FINALIZE answers, and the pseudo-commands SUM and SUMIS. -/

namespace Sys2Proof.Machine

/-! ### A message in the registers -/

/-- The state set holds the message `d` absorbed so far from accumulator `x`, `before` bytes counted ahead of it (R127). -/
structure StateSet.Holds (S : StateSet) (x : Accum) (before : Nat) (d : List Byte) : Prop where
  h_eq : S.h = compressBlocks x (fullBlocks d)
  valid_eq : S.validBytes = lastBytes d
  total_eq : S.totalLen = BitVec.ofNat 64 (before + d.length)

/-- An empty buffer holds the empty message. -/
theorem StateSet.Holds.of_empty {S : StateSet} {before : Nat} (hb : S.bufLen = 0)
    (ht : S.totalLen = BitVec.ofNat 64 before) : S.Holds S.h before [] where
  h_eq := rfl
  valid_eq := by simp [StateSet.validBytes, hb, lastBytes]
  total_eq := ht

/-- ABSORB_INTO appends its data to the message held. -/
theorem StateSet.Holds.absorbInto {l : Lane} {x : Accum} {before : Nat} {d : List Byte} (h : l.set.Holds x before d)
    (data : List Byte) : (l.absorbInto data).set.Holds x before (d ++ data) := by
  obtain ⟨htotal, hh, hvalid⟩ := absorbInto_spec l data
  obtain ⟨hblocks, hlast⟩ := fullBlocks_append d data
  have hstream : l.set.streamWith data = lastBytes d ++ data := by rw [StateSet.streamWith, h.valid_eq]
  refine ⟨?_, ?_, ?_⟩
  · rw [hh, hstream, h.h_eq, hblocks, compressBlocks_append]
  · rw [hvalid, hstream, hlast]
  · rw [htotal, h.total_eq, List.length_append, ← BitVec.ofNat_add, Nat.add_assoc]

/-- The bytes FINALIZE absorbs are the padding and length suffix of a message of as many bytes as TOTALLEN counts (R142,
R144). -/
theorem padding_append_suffix (n : Nat) :
    padding (BitVec.ofNat 64 n) ++ be64bytes (bitLen (BitVec.ofNat 64 n)) = messagePadding n := by
  have hzeros : padLength (BitVec.ofNat 64 n) - 1 = (119 - n % 64) % 64 := by
    simp only [padLength, BitVec.toNat_ofNat]
    split <;> omega
  have hbits : bitLen (BitVec.ofNat 64 n) = BitVec.ofNat 64 (8 * n) := by
    rw [Nat.mul_comm, BitVec.ofNat_mul]; rfl
  rw [padding, hzeros, hbits]
  rfl

/-- The padded copy holds the whole padded message, so its accumulator is the digest (R149). -/
theorem paddedCopy_h_of_holds {s : State} {x : Accum} {before : Nat} {d : List Byte} (h : s.live.Holds x before d) :
    s.paddedCopy.set.h = sha1From x before d := by
  have hlane : s.lane.set.Holds x before d := h
  have hpadded := ((hlane.absorbInto (padding s.live.totalLen)).absorbInto (be64bytes (bitLen s.live.totalLen))).h_eq
  rwa [List.append_assoc, h.total_eq, padding_append_suffix, ← h.total_eq] at hpadded

/-- A message counted from a whole number of blocks leaves BUFLEN = TOTALLEN mod 64 (R39). -/
theorem StateSet.Holds.bufLen_eq {S : StateSet} {x : Accum} {before : Nat} {d : List Byte} (h : S.Holds x before d)
    (hblocks : before % 64 = 0) : S.bufLen.val = S.totalLen.toNat % 64 := by
  rw [← validBytes_length, h.valid_eq, lastBytes_length, h.total_eq, BitVec.toNat_ofNat]
  omega

/-! ### Commands on a message -/

/-- The commands from `s` to `t` raised no fault and answered exactly the words `out` (after those untaken in `s`). -/
structure Answers (s t : State) (out : List Word) : Prop where
  fault_eq : t.fault = s.fault
  cause_eq : t.cause = s.cause
  rspBuf_eq : t.rspBuf = s.rspBuf ++ out

/-- FINALIZE answers the digest of the message held (R149). -/
theorem exec_finalize_of_holds {s : State} {x : Accum} {before : Nat} {d : List Byte} (h : s.live.Holds x before d)
    (hblocks : before % 64 = 0) : ∃ t, exec .finalize s = .next t ∧ Answers s t (sha1From x before d).words := by
  refine ⟨_, execFinalize_full ((paddedCopy_bufLen s).mpr (h.bufLen_eq hblocks)), rfl, rfl, ?_⟩
  rw [paddedCopy_h_of_holds h]
  rfl

/-- ABSORBs append their data to the message held, in order, and answer nothing. -/
theorem execAll_absorbs {s : State} {x : Accum} {before : Nat} {d : List Byte} (h : s.live.Holds x before d)
    (pieces : List (List Byte)) : ∃ t, execAll (pieces.map .absorb) s = .next t ∧
      t.live.Holds x before (d ++ pieces.flatten) ∧ Answers s t [] := by
  induction pieces generalizing s d with
  | nil => exact ⟨s, rfl, by simpa using h, rfl, rfl, by simp⟩
  | cons p pieces ih =>
    have hlane : s.lane.set.Holds x before d := h
    obtain ⟨t, ht, hheld, ha⟩ := ih (s := { s.putLive (s.lane.absorbInto p) with fresh := false }) (hlane.absorbInto p)
    refine ⟨t, ht, ?_, ha.fault_eq, ha.cause_eq, ha.rspBuf_eq⟩
    rwa [List.flatten_cons, ← List.append_assoc]

/-! ### The pseudo-commands -/

/-- The further ABSORBs carry all the data that their number allows. -/
theorem furtherAbsorbs_eq_map {fuel : Nat} {d : List Byte} (h : d.length ≤ Config.maxAbsorbLen * fuel) :
    ∃ pieces : List (List Byte), furtherAbsorbs fuel d = pieces.map .absorb ∧ pieces.flatten = d ∧
      ∀ p ∈ pieces, p.length ≤ Config.maxAbsorbLen := by
  induction fuel generalizing d with
  | zero =>
    have hd : d = [] := List.eq_nil_of_length_eq_zero (by omega)
    exact ⟨[], rfl, hd.symm, by simp⟩
  | succ fuel ih =>
    by_cases hd : d = []
    · exact ⟨[], by simp [furtherAbsorbs, hd], hd.symm, by simp⟩
    · rw [Nat.mul_succ] at h
      obtain ⟨pieces, hmap, hflat, hlen⟩ := ih (d := d.drop Config.maxAbsorbLen) (by rw [List.length_drop]; omega)
      refine ⟨d.take Config.maxAbsorbLen :: pieces, ?_, ?_, ?_⟩
      · simp [furtherAbsorbs, hd, hmap]
      · simp [hflat]
      · exact List.forall_mem_cons.mpr ⟨List.length_take_le _ _, hlen⟩

/-- The split of R81: ABSORBs of legal length that carry the data between them. -/
theorem absorbCommands_eq_map (d : List Byte) : ∃ pieces : List (List Byte), absorbCommands d = pieces.map .absorb ∧
    pieces.flatten = d ∧ ∀ p ∈ pieces, p.length ≤ Config.maxAbsorbLen := by
  have hlt : d.length < Config.maxAbsorbLen * (d.length / Config.maxAbsorbLen + 1) :=
    Nat.lt_mul_div_succ _ (by decide)
  rw [Nat.mul_succ] at hlt
  obtain ⟨pieces, hmap, hflat, hlen⟩ := furtherAbsorbs_eq_map (d := d.drop Config.maxAbsorbLen)
    (fuel := d.length / Config.maxAbsorbLen) (by rw [List.length_drop]; omega)
  refine ⟨d.take Config.maxAbsorbLen :: pieces, ?_, ?_, ?_⟩
  · rw [absorbCommands, hmap, List.map_cons]
  · rw [List.flatten_cons, hflat, List.take_append_drop]
  · exact List.forall_mem_cons.mpr ⟨List.length_take_le _ _, hlen⟩

/-- The ABSORBs of R81 and FINALIZE after them, from an empty buffer with whole blocks counted, answer the digest of the
data continued from the accumulator. -/
theorem execAll_absorbCommands_finalize {s : State} {before : Nat} (hb : s.live.bufLen = 0)
    (ht : s.live.totalLen = BitVec.ofNat 64 before) (hblocks : before % 64 = 0) (d : List Byte) :
    ∃ t, execAll (absorbCommands d ++ [.finalize]) s = .next t ∧
      Answers s t (sha1From s.live.h before d).words := by
  obtain ⟨pieces, hmap, rfl, -⟩ := absorbCommands_eq_map d
  obtain ⟨t, ht, hheld, habs⟩ := execAll_absorbs (StateSet.Holds.of_empty hb ht) pieces
  obtain ⟨u, hu, hfin⟩ := exec_finalize_of_holds hheld hblocks
  refine ⟨u, ?_, hfin.fault_eq.trans habs.fault_eq, hfin.cause_eq.trans habs.cause_eq, ?_⟩
  · rw [hmap, execAll_append _ _ ht, execAll_cons_next _ hu]
    rfl
  · rw [hfin.rspBuf_eq, habs.rspBuf_eq, List.append_nil, List.nil_append]

/-- SUM answers SHA-1 of its data (R81). -/
theorem execAll_sumCommands (s : State) (d : List Byte) :
    ∃ t, execAll (sumCommands d) s = .next t ∧ Answers s t (sha1 d).words := by
  obtain ⟨t, ht, ha⟩ := execAll_absorbCommands_finalize (s := { s with
    live := { s.live with h := iv, bufLen := 0, totalLen := 0 }, fresh := true }) (before := 0) rfl rfl rfl d
  exact ⟨t, ht, ha.fault_eq, ha.cause_eq, ha.rspBuf_eq⟩

/-- Settles O50: after RESET the engine is fresh, so SETSTATE and SETLEN64 are in sequence, and the data is then absorbed
with one block counted. -/
theorem sumisNeverFaults : Obligations.SumisNeverFaults := by
  intro s d x
  obtain ⟨t, ht, ha⟩ := execAll_absorbCommands_finalize (s := { s with
    live := { s.live with h := x, bufLen := 0, totalLen := 64 }, fresh := true }) (before := 64) rfl rfl rfl d
  exact ⟨t, ht, ha.fault_eq, ha.cause_eq, ha.rspBuf_eq⟩

/-- A message that begins with a whole block is continued from the accumulator after that block (R83). -/
theorem sha1From_block_append {B : List Byte} (hB : B.length = 64) (x : Accum) (before : Nat) (d : List Byte) :
    sha1From x before (B ++ d) = sha1From (compressBlock x B) (before + 64) d := by
  rw [sha1From, sha1From, List.length_append, hB, List.append_assoc, fullBlocks_block_append _ _ hB,
    compressBlocks_cons, Nat.add_assoc]

/-- Settles O51: SUMIS and SUM answer one digest, that of a message whose first block is B. -/
theorem sumisChainsWithSum : Obligations.SumisChainsWithSum := by
  intro s B d hB
  obtain ⟨t, ht, -, -, hsumis⟩ := sumisNeverFaults s d (compressBlock iv B)
  obtain ⟨u, hu, hsum⟩ := execAll_sumCommands s (B ++ d)
  refine ⟨t, u, ht, hu, ?_⟩
  rw [hsumis, hsum.rspBuf_eq, sha1, sha1From_block_append hB]

/-- The assembler accepts SUM of any data: each ABSORB of the split has a legal length (R80, R81). -/
theorem sumCommands_wellFormed {d : List Byte} {i : Instr} (h : i ∈ sumCommands d) : i.wellFormed = true := by
  obtain ⟨pieces, hmap, -, hlen⟩ := absorbCommands_eq_map d
  simp only [sumCommands, hmap, List.cons_append, List.mem_cons, List.mem_append, List.mem_map, List.not_mem_nil,
    or_false] at h
  obtain rfl | ⟨p, hp, rfl⟩ | rfl := h
  · rfl
  · exact decide_eq_true (hlen p hp)
  · rfl

/-- FINALIZE is the last command of SUM only. -/
theorem sumCommands_dropLast_ne_finalize {d : List Byte} {i : Instr} (h : i ∈ (sumCommands d).dropLast) :
    i ≠ .finalize := by
  obtain ⟨pieces, hmap, -, -⟩ := absorbCommands_eq_map d
  rw [sumCommands, List.dropLast_concat, hmap, List.mem_cons, List.mem_map] at h
  obtain rfl | ⟨p, -, rfl⟩ := h
  · nofun
  · nofun

theorem assemble_sumCommands (d : List Byte) :
    assemble (sumCommands d) = some ((sumCommands d).flatMap encode) :=
  if_pos (List.all_eq_true.mpr fun _ => sumCommands_wellFormed)

/-- Settles O49: the words run as the effects of SUM's commands in order, and those answer SHA-1 of the data. -/
theorem sumComputesSha1 : Obligations.SumComputesSha1 := by
  intro d
  refine ⟨by rw [assemble_sumCommands]; rfl, fun s words rest hidle hwords hcmd => ?_⟩
  obtain rfl : (sumCommands d).flatMap encode = words := Option.some.inj ((assemble_sumCommands d).symm.trans hwords)
  obtain ⟨t, ht, ha⟩ := execAll_sumCommands s d
  have hs : s.consumeTo ((sumCommands d).flatMap encode ++ rest) = s := by rw [consumeTo_idle hidle, ← hcmd]
  obtain ⟨hr, hf, -, hb⟩ := hidle
  have hft : t.fault = false := ha.fault_eq.trans hf
  have hrun := systemRun_encode (fun _ => sumCommands_wellFormed) (fun _ => sumCommands_dropLast_ne_finalize) hr
    (fun _ => hb) ht hft rest
  rw [hs] at hrun
  exact ⟨t.consumeTo rest, hrun, by simp [ha.rspBuf_eq, hb], rfl, hft⟩

end Sys2Proof.Machine
end

section
/-! SUPPORT. The engine control commands RESET, SETSTATE and SETLEN64 (spec R100, R101, R103, R104): their effects, their
faults, RESET against the reset input (R244), and the empty message chained from a supplied accumulator. -/

namespace Sys2Proof.Machine

/-- What RESET writes (R100). -/
theorem exec_reset (s : State) : exec .reset s =
    .next { s with live := { s.live with h := iv, bufLen := 0, totalLen := 0 }, fresh := true } := rfl

/-- An idle engine consumes the header of a late command alone and writes only FAULT and CAUSE (R203). -/
theorem step_idle_late {s : State} {hdr : Word} {ws : List Word} {k : Header} (hidle : s.idle) (hc : s.cmd = hdr :: ws)
    (hk : decodeHeader hdr = .ok k) (hseq : outOfSequence k s.fresh = true) :
    step s = .next { s with cmd := ws, fault := true, cause := .sequenceError } := by
  rw [step_idle hidle hc, takeCommand_late hk hseq, consumeTo_idle hidle]
  rfl

/-- The empty message, with nothing counted ahead of it, is padded to one block (R103, R144). -/
theorem sha1From_empty (x : Accum) : sha1From x 0 [] = compressBlock x (0x80 :: List.replicate 63 0) := by
  have hpad : [] ++ messagePadding 0 = (0x80 :: List.replicate 63 0) ++ [] := by decide
  rw [sha1From, List.length_nil, hpad, fullBlocks_block_append _ _ (by decide)]
  rfl

/-- Settles O27: after RESET the engine is fresh, so SETSTATE is in sequence, and FINALIZE then pads the empty message
held from the supplied accumulator. -/
theorem setstateThenFinalizePadsTheEmptyMessage : Obligations.SetstateThenFinalizePadsTheEmptyMessage := by
  intro s p0 p1 p2 p3 p4
  obtain ⟨t, ht, ha⟩ := exec_finalize_of_holds (s := { s with
    live := { s.live with h := ⟨p0, p1, p2, p3, p4⟩, bufLen := 0, totalLen := 0 }, fresh := true }) (before := 0)
    (StateSet.Holds.of_empty rfl rfl) rfl
  refine ⟨t, ?_, by rw [ha.rspBuf_eq, sha1From_empty]⟩
  calc execAll [.reset, .setstate p0 p1 p2 p3 p4, .finalize] s
    _ = execAll [.setstate p0 p1 p2 p3 p4, .finalize] _ := execAll_cons_next _ (exec_reset s)
    _ = execAll [.finalize] _ := execAll_cons_next _ (execSetstate_fresh rfl p0 p1 p2 p3 p4)
    _ = .next t := execAll_cons_next [] ht

/-- Settles O23: RESET leaves only BUF bytes that are stale and hidden registers apart from the reset input, because an
idle engine has no fault, no command in progress and no response left. -/
theorem resetCommandAndResetInputAgree : Obligations.ResetCommandAndResetInputAgree := by
  rintro s ⟨-, hfault, htaken, hrsp⟩ hcause
  exact ⟨_, exec_reset s,
    { live := ⟨rfl, rfl, rfl, by simp [StateSet.validBytes]⟩
      fresh := rfl
      fault := hfault
      cause := hcause
      taken := htaken
      rspBuf := hrsp
      cmd := rfl
      rspReady := rfl
      rst := rfl
      rspOut := rfl },
    step_resetInput rfl⟩

/-- Settles O24: what RESET writes does not depend on what it overwrites, its opcode reserves ARG, and a faulted engine
has no step to run it in. -/
theorem resetCommandResult : Obligations.ResetCommandResult := by
  refine ⟨rfl, rfl, exec_reset, fun s => ?_, rejectsNonzeroArg (by decide), fun s ws hr hf _ => step_halted hr hf⟩
  rw [execAll_cons_next _ (exec_reset s), execAll_cons_next _ (exec_reset _), exec_reset]
  rfl

/-- Settles O25: the two values of FRESH choose the effect or the fault, and a late header faults before its payload is
read. -/
theorem setstateResult : Obligations.SetstateResult := by
  refine ⟨fun s p0 p1 p2 p3 p4 hf => execSetstate_fresh hf p0 p1 p2 p3 p4,
    fun s p0 p1 p2 p3 p4 hf => execSetstate_late hf p0 p1 p2 p3 p4,
    fun s ws hidle hf hc => ?_, rejectsNonzeroArg (by decide)⟩
  have hlate : outOfSequence .setstate s.fresh = true := by simp [outOfSequence, hf]
  exact step_idle_late hidle hc rfl hlate

/-- Settles O26: the two values of FRESH choose the effect or the fault, and the opcode reserves ARG. -/
theorem setlen64Result : Obligations.Setlen64Result :=
  ⟨fun _ hf => execSetlen64_fresh hf, fun _ hf => execSetlen64_late hf, rejectsNonzeroArg (by decide)⟩

end Sys2Proof.Machine
end

section
/-! SUPPORT. ABSORB on the live stream (spec R121, R122, R125 to R129): its effect, the BUF bytes it writes, its corner
cases, and that how the data is cut into ABSORBs shows nowhere. -/

namespace Sys2Proof.Machine

/-! ### The effect -/

/-- What ABSORB writes: the live and hidden registers by ABSORB_INTO, and FRESH (R121). -/
theorem exec_absorb (data : List Byte) (s : State) :
    exec (.absorb data) s = .next { s.putLive (s.lane.absorbInto data) with fresh := false } := rfl

@[simp] theorem streamWith_length (S : StateSet) (data : List Byte) :
    (S.streamWith data).length = S.bufLen.val + data.length := by
  simp [StateSet.streamWith]

/-- Settles O28: the blocks are the complete chunks of the stream, and the valid bytes left are what follows them. -/
theorem absorbResult : Obligations.AbsorbResult := by
  intro s d
  obtain ⟨htotal, hh, hvalid⟩ := absorbInto_spec s.lane d
  refine ⟨_, exec_absorb d s, ⟨fullBlocks (s.live.streamWith d), ?_, ?_, ?_, hh⟩, absorbInto_bufLen s.lane d, htotal,
    rfl, rfl, rfl, rfl, rfl, rfl, rfl, rfl, rfl, rfl⟩
  · rw [fullBlocks, takeBlocks_length, streamWith_length]
  · exact takeBlocks_whole _ _ (by omega)
  · calc s.live.streamWith d
      _ = (fullBlocks (s.live.streamWith d)).flatten ++ lastBytes (s.live.streamWith d) :=
        (fullBlocks_flatten_lastBytes _).symm
      _ = (fullBlocks (s.live.streamWith d)).flatten ++ (s.lane.absorbInto d).set.validBytes := by rw [hvalid]; rfl

/-! ### The bytes of BUF -/

/-- How many bytes step 4 stores: the new BUFLEN, or none when a partial buffer stays partial. -/
theorem topUp_tail_length (l : Lane) (data : List Byte) : (l.topUp data).2.length % 64 =
    if l.set.bufLen.val = 0 ∨ 64 ≤ l.set.bufLen.val + data.length then (l.set.bufLen.val + data.length) % 64
    else 0 := by
  have hb := l.set.bufLen.isLt
  rw [topUp_rest_length]
  split <;> split <;> omega

/-- ABSORB_INTO writes BUF at the positions of the top-up and of the tail only (R122). -/
theorem absorbInto_buf_outside (l : Lane) (data : List Byte) (i : Nat) (hi : i < 64)
    (htop : ¬ (l.set.bufLen.val ≠ 0 ∧ l.set.bufLen.val ≤ i ∧ i < l.set.bufLen.val + data.length))
    (htail : ¬ ((l.set.bufLen.val = 0 ∨ 64 ≤ l.set.bufLen.val + data.length) ∧
      i < (l.set.bufLen.val + data.length) % 64)) :
    (l.absorbInto data).set.buf[i] = l.set.buf[i] := by
  have hrest : ((l.addLength data.length).topUp data).2.length % 64 ≤ i := by
    rw [topUp_tail_length, addLength_bufLen]
    split
    · next hfull => exact Nat.le_of_not_lt fun hlt => htail ⟨hfull, hlt⟩
    · exact Nat.zero_le i
  simp only [Lane.absorbInto, atPosition_set]
  rw [storeTail_buf_outside _ _ _ hi (by rw [List.length_drop]; omega)]
  simp only [absorbChunks_set]
  exact topUp_buf_outside _ _ _ hi htop

/-- Settles O30: `absorbInto_buf_outside` on the live registers. -/
theorem absorbWritesBufOnlyAtTopUpAndTail : Obligations.AbsorbWritesBufOnlyAtTopUpAndTail :=
  fun s d => ⟨_, exec_absorb d s, absorbInto_buf_outside s.lane d⟩

/-- Whole blocks into an empty buffer go straight into COMPRESS: no byte of BUF is written (R126). -/
theorem absorbInto_buf_of_whole {l : Lane} {data : List Byte} (hb : l.set.bufLen.val = 0)
    (hd : data.length % 64 = 0) : (l.absorbInto data).set.buf = l.set.buf :=
  Vector.ext fun i hi => absorbInto_buf_outside l data i hi (fun h => h.1 hb) (by omega)

theorem StateSet.eq_of_fields {S T : StateSet} (hh : S.h = T.h) (hbuf : S.buf = T.buf) (hlen : S.bufLen = T.bufLen)
    (htotal : S.totalLen = T.totalLen) : S = T := by
  cases S; cases T
  exact StateSet.mk.injEq .. ▸ ⟨hh, hbuf, hlen, htotal⟩

/-- Absorbing no bytes leaves the state set as it was (R126). -/
theorem absorbInto_nil (l : Lane) : (l.absorbInto []).set = l.set := by
  have hb := l.set.bufLen.isLt
  obtain ⟨htotal, hh, -⟩ := absorbInto_spec l []
  have hlen : (l.absorbInto []).set.bufLen = l.set.bufLen :=
    Fin.ext ((absorbInto_bufLen l []).trans (Nat.mod_eq_of_lt hb))
  have hbuf : (l.absorbInto []).set.buf = l.set.buf :=
    Vector.ext fun i hi => absorbInto_buf_outside l [] i hi (by simp) (by simp; omega)
  rw [fullBlocks_short _ (by simp), compressBlocks_nil] at hh
  rw [List.length_nil, BitVec.add_zero] at htotal
  exact StateSet.eq_of_fields hh hbuf hlen htotal

/-! ### Corner cases -/

/-- Only the bytes of the pieces count. -/
theorem takeBlocks_take (n : Nat) (d : List Byte) : takeBlocks n (d.take (64 * n)) = takeBlocks n d := by
  induction n generalizing d with
  | zero => rfl
  | succ n ih =>
    have hfirst : min 64 (64 * (n + 1)) = 64 := by omega
    have hrest : 64 * (n + 1) - 64 = 64 * n := by omega
    rw [takeBlocks, takeBlocks, List.take_take, List.drop_take, hfirst, hrest, ih]

section BufferCases

variable {l : Lane} {data : List Byte}

/-- Into an empty buffer: the blocks are those of the data alone. -/
theorem absorbInto_of_empty {m : Nat} (hb : l.set.bufLen = 0) (hm : data.length / 64 = m) :
    (l.absorbInto data).set.h = compressBlocks l.set.h (takeBlocks m data) ∧
    (l.absorbInto data).set.bufLen.val = data.length % 64 ∧
    (l.absorbInto data).set.validBytes = data.drop (64 * m) := by
  subst hm
  have hstream : l.set.streamWith data = data := by simp [StateSet.streamWith, StateSet.validBytes, hb]
  obtain ⟨-, hh, hvalid⟩ := absorbInto_spec l data
  rw [hstream] at hh hvalid
  exact ⟨hh, by simp [absorbInto_bufLen, hb], hvalid⟩

/-- Exactly the missing bytes: the stream is one block. -/
theorem absorbInto_of_fills (hd : l.set.bufLen.val + data.length = 64) :
    (l.absorbInto data).set.h = compressBlock l.set.h (l.set.streamWith data) ∧
    (l.absorbInto data).set.bufLen = 0 := by
  obtain ⟨-, hh, -⟩ := absorbInto_spec l data
  have hone := fullBlocks_block_append (l.set.streamWith data) [] ((streamWith_length _ _).trans hd)
  rw [List.append_nil, fullBlocks_short [] (by decide)] at hone
  exact ⟨by rw [hh, hone]; rfl, Fin.ext (by rw [absorbInto_bufLen, hd]; rfl)⟩

/-- Fewer than the missing bytes: the stream holds no block. -/
theorem absorbInto_of_short (hd : l.set.bufLen.val + data.length < 64) :
    (l.absorbInto data).set.h = l.set.h ∧
    (l.absorbInto data).set.bufLen.val = l.set.bufLen.val + data.length := by
  obtain ⟨-, hh, -⟩ := absorbInto_spec l data
  rw [fullBlocks_short _ (by rwa [streamWith_length])] at hh
  exact ⟨hh, by rw [absorbInto_bufLen, Nat.mod_eq_of_lt hd]⟩

end BufferCases

/-- TOTALLEN counts modulo 2^64 (R25). -/
theorem absorbInto_totalLen_toNat (l : Lane) (data : List Byte) :
    (l.absorbInto data).set.totalLen.toNat = (l.set.totalLen.toNat + data.length) % 2 ^ 64 := by
  rw [(absorbInto_spec l data).1, BitVec.toNat_add, BitVec.toNat_ofNat, Nat.add_mod_mod]

/-- Settles O29, clause by clause: nothing absorbed, an empty buffer, a buffer just filled, a buffer left partial. -/
theorem absorbCornerCases : Obligations.AbsorbCornerCases := by
  intro s d
  refine ⟨_, exec_absorb d s, ?_, fun m _ hb hd => ?_, fun _ hd => ?_, fun _ hd => ?_, fun hb hd => ?_,
    absorbInto_totalLen_toNat s.lane d⟩
  · rintro rfl
    exact ⟨absorbInto_nil s.lane, rfl⟩
  · obtain ⟨hh, hlen, -⟩ := absorbInto_of_empty (l := s.lane) (data := d) (m := m) hb (by omega)
    have hwhole : d.length % 64 = 0 := by omega
    exact ⟨hh, Fin.ext (hlen.trans hwhole), absorbInto_buf_of_whole (l := s.lane) (congrArg Fin.val hb) hwhole⟩
  · exact absorbInto_of_fills (l := s.lane) (by rw [lane_set]; omega)
  · exact absorbInto_of_short (l := s.lane) (by rw [lane_set]; omega)
  · obtain ⟨hh, hlen, hvalid⟩ := absorbInto_of_empty (l := s.lane) (data := d) (m := 262143) hb (by omega)
    rw [← takeBlocks_take] at hh
    exact ⟨hh, hlen.trans (by omega), hvalid⟩

/-! ### Splitting the data -/

theorem SameValid.of_eq {S T : StateSet} (h : S = T) : SameValid S T := h ▸ ⟨rfl, rfl, rfl, rfl⟩

theorem SameValid.trans {S T U : StateSet} (h : SameValid S T) (g : SameValid T U) : SameValid S U := by
  obtain ⟨hh, hlen, htotal, hvalid⟩ := h
  obtain ⟨gh, glen, gtotal, gvalid⟩ := g
  exact ⟨hh.trans gh, hlen.trans glen, htotal.trans gtotal, hvalid.trans gvalid⟩

/-- ABSORB_INTO of two pieces in turn is ABSORB_INTO of the two together (R128). -/
theorem absorbInto_append (l : Lane) (d1 d2 : List Byte) :
    SameValid ((l.absorbInto d1).absorbInto d2).set (l.absorbInto (d1 ++ d2)).set := by
  obtain ⟨total1, h1, valid1⟩ := absorbInto_spec l d1
  obtain ⟨total2, h2, valid2⟩ := absorbInto_spec (l.absorbInto d1) d2
  obtain ⟨total, h, valid⟩ := absorbInto_spec l (d1 ++ d2)
  obtain ⟨hblocks, hlast⟩ := fullBlocks_append (l.set.streamWith d1) d2
  have hstream : l.set.streamWith (d1 ++ d2) = l.set.streamWith d1 ++ d2 := (List.append_assoc _ _ _).symm
  have hstream2 : (l.absorbInto d1).set.streamWith d2 = lastBytes (l.set.streamWith d1) ++ d2 := by
    rw [StateSet.streamWith, valid1]
  refine ⟨?_, Fin.ext ?_, ?_, ?_⟩
  · rw [h2, hstream2, h1, h, hstream, hblocks, compressBlocks_append]
  · simp only [absorbInto_bufLen, List.length_append]; omega
  · rw [total2, total1, total, List.length_append, BitVec.ofNat_add, BitVec.add_assoc]
  · rw [valid2, hstream2, valid, hstream, hlast]

theorem SameVisible.trans {s t u : State} (h : SameVisible s t) (g : SameVisible t u) : SameVisible s u where
  live := h.live.trans g.live
  fresh := h.fresh.trans g.fresh
  fault := h.fault.trans g.fault
  cause := h.cause.trans g.cause
  taken := h.taken.trans g.taken
  rspBuf := h.rspBuf.trans g.rspBuf
  cmd := h.cmd.trans g.cmd
  rspReady := h.rspReady.trans g.rspReady
  rst := h.rst.trans g.rst
  rspOut := h.rspOut.trans g.rspOut

/-- States that differ in the live registers' stale bytes, the copy and the hidden registers only. -/
theorem SameVisible.of_live {s t : State} (h : SameValid s.live t.live)
    (hrest : { s with live := t.live, copy := t.copy, scratch := t.scratch } = t) : SameVisible s t := by
  rw [← hrest]
  exact ⟨h, rfl, rfl, rfl, rfl, rfl, rfl, rfl, rfl, rfl⟩

/-- One or more ABSORBs in order look the same afterwards as one ABSORB of all their data. -/
theorem execAll_absorbs_sameVisible (s : State) (p : List Byte) (pieces : List (List Byte)) :
    ∃ t u, execAll ((p :: pieces).map .absorb) s = .next t ∧
      exec (.absorb (p ++ pieces.flatten)) s = .next u ∧ SameVisible t u := by
  induction pieces generalizing s p with
  | nil =>
    rw [List.flatten_nil, List.append_nil]
    exact ⟨_, _, execAll_cons_next [] (exec_absorb p s), exec_absorb p s, .of_live (.of_eq rfl) rfl⟩
  | cons q pieces ih =>
    obtain ⟨t, u, ht, hu, htu⟩ := ih { s.putLive (s.lane.absorbInto p) with fresh := false } q
    cases (exec_absorb _ _).symm.trans hu
    refine ⟨t, _, (execAll_cons_next _ (exec_absorb p s)).trans ht, exec_absorb _ s, htu.trans (.of_live ?_ rfl)⟩
    exact absorbInto_append s.lane p (q ++ pieces.flatten)

/-- Settles O31: the pieces are d1 and d2. -/
theorem absorbSplitEquivalence : Obligations.AbsorbSplitEquivalence := by
  intro s d1 d2
  simpa only [List.map_cons, List.map_nil, List.flatten_cons, List.flatten_nil, List.append_nil] using
    execAll_absorbs_sameVisible s d1 [d2]

/-- Settles O32: one piece per byte; with no byte there is no command, and absorbing none leaves the registers. -/
theorem absorbByteSerialEquivalence : Obligations.AbsorbByteSerialEquivalence := by
  intro s d
  cases d with
  | nil =>
    exact ⟨s, _, rfl, exec_absorb [] s, .of_eq (absorbInto_nil s.lane).symm, fun h => absurd rfl h⟩
  | cons b d =>
    obtain ⟨t, u, ht, hu, htu⟩ := execAll_absorbs_sameVisible s [b] (d.map fun c => [c])
    rw [List.map_cons, List.map_map] at ht
    rw [← List.flatMap_def, List.flatMap_singleton'] at hu
    exact ⟨t, u, ht, hu, htu.live, fun _ => htu⟩

end Sys2Proof.Machine
end

section
/-! SUPPORT. FINALIZE (spec R141 to R149): the padding and its number, the bit length and its suffix, the accumulator of the
padded copy as a function of the live state, and the fault when the copy is not full. -/

namespace Sys2Proof.Machine

/-! ### The bytes FINALIZE absorbs -/

/-- P counts the 0x80 byte (R144). -/
@[simp] theorem padding_length (totalLen : DWord) : (padding totalLen).length = padLength totalLen := by
  simp only [padding, padLength, List.length_cons, List.length_replicate]
  split <;> omega

/-- Settles O35: P by its two branches. -/
theorem paddingReachesFiftySix : Obligations.PaddingReachesFiftySix := by
  intro totalLen r P
  have hP : P = if r < 56 then 56 - r else 120 - r := padding_length totalLen
  have hr : r < 64 := Nat.mod_lt _ (by decide)
  refine ⟨fun hlt => ?_, fun hge => ?_, by rw [show P = padLength totalLen from hP]; rfl, ?_⟩
  · rw [if_pos hlt] at hP; omega
  · rw [if_neg (by omega)] at hP; omega
  · split at hP <;> omega

/-- The eight bytes of a length, by their positions (R52). -/
theorem be64bytes_eq_map (v : DWord) : be64bytes v = (List.range 8).map fun i => v.extractLsb' (56 - 8 * i) 8 := rfl

/-- Eight times TOTALLEN is TOTALLEN[60:0] moved up by three bits (R142). -/
theorem bitLen_eq_append (totalLen : DWord) : bitLen totalLen = totalLen.extractLsb' 0 61 ++ (0 : BitVec 3) := by
  apply BitVec.eq_of_toNat_eq
  rw [bitLen, BitVec.toNat_mul, BitVec.toNat_append, BitVec.extractLsb'_toNat, Nat.shiftRight_zero, Nat.shiftLeft_eq,
    show (0 : BitVec 3).toNat = 0 from rfl, Nat.or_zero]
  exact Nat.mul_mod_mul_right 8 totalLen.toNat (2 ^ 61)

/-- Settles O36: the product is the shift by three bits, and the suffix bytes are listed by position. -/
theorem bitLengthSuffix : Obligations.BitLengthSuffix := by
  intro totalLen
  refine ⟨BitVec.toNat_mul .., bitLen_eq_append totalLen, be64bytes_length _, fun i hi => ?_⟩
  simp [be64bytes_eq_map, hi]

/-! ### The padded copy -/

/-- The accumulator of the padded copy, from the live registers alone: the complete blocks of the valid bytes, the padding
and the length suffix (R149). -/
theorem paddedCopy_h (s : State) : s.paddedCopy.set.h = compressBlocks s.live.h
    (fullBlocks (s.live.streamWith (padding s.live.totalLen ++ be64bytes (bitLen s.live.totalLen)))) := by
  obtain ⟨htogether, -⟩ := absorbInto_append s.lane (padding s.live.totalLen) (be64bytes (bitLen s.live.totalLen))
  obtain ⟨-, hh, -⟩ := absorbInto_spec s.lane (padding s.live.totalLen ++ be64bytes (bitLen s.live.totalLen))
  exact htogether.trans hh

/-- FINALIZE when BUFLEN is TOTALLEN mod 64 (R141, R147). -/
theorem exec_finalize_of_total_mod {s : State} (h : s.live.totalLen.toNat % 64 = s.live.bufLen.val) :
    exec .finalize s = .next ((s.putCopy s.paddedCopy).respond s.paddedCopy.set.h.words) :=
  execFinalize_full ((paddedCopy_bufLen s).mpr h.symm)

/-- FINALIZE when it is not (R146). -/
theorem exec_finalize_of_total_mod_ne {s : State} (h : s.live.totalLen.toNat % 64 ≠ s.live.bufLen.val) :
    exec .finalize s = .next ((s.putCopy s.paddedCopy).enterFault .padAssert) :=
  execFinalize_notFull (mt (paddedCopy_bufLen s).mp h.symm)

/-- Settles O33: the padded message is the stream FINALIZE absorbs into its copy, and the second FINALIZE finds the same
live registers. -/
theorem finalizeIsAPureFunctionOfTheLiveState : Obligations.FinalizeIsAPureFunctionOfTheLiveState := by
  intro s hmod r P m digest
  have hm : m = s.live.streamWith (padding s.live.totalLen ++ be64bytes (bitLen s.live.totalLen)) := by
    simp [m, P, r, StateSet.streamWith, padding, padLength, bitLen]
  have hdigest {t : State} (ht : t.live = s.live) : t.paddedCopy.set.h = digest := by
    rw [paddedCopy_h, ht, ← hm]; rfl
  have hagain := hdigest (t := (s.putCopy s.paddedCopy).respond s.paddedCopy.set.h.words) rfl
  refine ⟨?_, _, exec_finalize_of_total_mod hmod, by rw [hdigest rfl]; rfl, rfl, rfl, rfl, rfl, rfl, rfl, rfl, rfl, rfl,
    _, exec_finalize_of_total_mod hmod, rfl, by rw [respond_rspBuf, hagain]; rfl⟩
  have hr : r < 64 := Nat.mod_lt _ (by decide)
  rw [hm, streamWith_length, ← hmod, List.length_append, padding_length, be64bytes_length, padLength]
  split <;> omega

/-- Settles O34: the two lengths agree or they do not, and only the second raises the fault. -/
theorem padAssertExactlyWhenLengthsDisagree : Obligations.PadAssertExactlyWhenLengthsDisagree := by
  intro s hf
  by_cases hmod : s.live.totalLen.toNat % 64 = s.live.bufLen.val
  · exact ⟨_, exec_finalize_of_total_mod hmod, by simp [hf, hmod], by simp [hf], rfl, rfl, rfl, rfl, rfl, rfl, rfl⟩
  · exact ⟨_, exec_finalize_of_total_mod_ne hmod, by simp [Ne.symm hmod], by simp, rfl, rfl, rfl, rfl, rfl, rfl, rfl⟩

/-! ### FINALIZE in the middle of a stream -/

/-- FINALIZE leaves the live registers, whether it answers or faults (R143). -/
theorem exec_finalize_live {s t : State} (h : exec .finalize s = .next t) : t.live = s.live := by
  cases exec_effect h with
  | finalize | padAssert | late => rfl

/-- ABSORB and then FINALIZE answer the digest of the message so far, which is still held (R143, R149). -/
theorem execAll_absorb_finalize_of_holds {s : State} {x : Accum} {before : Nat} {d : List Byte}
    (h : s.live.Holds x before d) (hblocks : before % 64 = 0) (data : List Byte) :
    ∃ t, execAll [.absorb data, .finalize] s = .next t ∧ t.live.Holds x before (d ++ data) ∧
      t.rspBuf = s.rspBuf ++ (sha1From x before (d ++ data)).words := by
  have hlane : s.lane.set.Holds x before d := h
  have hheld := hlane.absorbInto data
  obtain ⟨t, ht, ha⟩ := exec_finalize_of_holds
    (s := { s.putLive (s.lane.absorbInto data) with fresh := false }) hheld hblocks
  refine ⟨t, ?_, exec_finalize_live ht ▸ hheld, ha.rspBuf_eq⟩
  rw [execAll_cons_next _ (exec_absorb data s), execAll_cons_next _ ht]
  rfl

/-- Settles O52: after RESET the empty message is held, and each ABSORB with its FINALIZE goes on from what is held. -/
theorem finalizeOnCopyLeavesTheStreamGoing : Obligations.FinalizeOnCopyLeavesTheStreamGoing := by
  intro s d1 d2 hb
  obtain ⟨t, ht, hheld, hout1⟩ := execAll_absorb_finalize_of_holds (s := { s with
    live := { s.live with h := iv, bufLen := 0, totalLen := 0 }, fresh := true }) (before := 0)
    (StateSet.Holds.of_empty rfl rfl) rfl d1
  obtain ⟨u, hu, -, hout2⟩ := execAll_absorb_finalize_of_holds hheld rfl d2
  refine ⟨u, ?_, ?_⟩
  · calc execAll [.reset, .absorb d1, .finalize, .absorb d2, .finalize] s
      _ = execAll ([.absorb d1, .finalize] ++ [.absorb d2, .finalize]) _ := execAll_cons_next _ (exec_reset s)
      _ = execAll [.absorb d2, .finalize] t := execAll_append _ _ ht
      _ = .next u := hu
  · rw [hout2, hout1]
    simp [hb, sha1]

end Sys2Proof.Machine
end

section
/-! SUPPORT. The block transform (spec R160 to R172): the schedule word by word, the rounds as a fold over the round
numbers, and the round constants by range. -/

namespace Sys2Proof.Machine

/-! ### The schedule, word by word -/

/-- The word at index `i` of what is left after `n` words. -/
theorem getD_drop (ws : List Word) (n i : Nat) : (ws.drop n).getD i 0 = ws.getD (n + i) 0 := by
  simp only [List.getD_eq_getElem?_getD, List.getElem?_drop]

/-- Word t of a block is read from its bytes 4t to 4t + 3 (R161). -/
theorem blockWords_getD (blk : List Byte) (t : Nat) (ht : 4 * t + 3 < blk.length) :
    (blockWords blk).getD t 0 =
      be32 (blk.getD (4 * t) 0) (blk.getD (4 * t + 1) 0) (blk.getD (4 * t + 2) 0) (blk.getD (4 * t + 3) 0) := by
  induction blk using blockWords.induct generalizing t with
  | case1 b0 b1 b2 b3 rest ih =>
    cases t with
    | zero => rfl
    | succ t => exact ih t (by simp only [List.length_cons] at ht; omega)
  | case2 blk hshort =>
    match blk, hshort with
    | [], _ | [_], _ | [_, _], _ | [_, _, _], _ => simp at ht
    | b0 :: b1 :: b2 :: b3 :: rest, hshort => exact absurd rfl (hshort b0 b1 b2 b3 rest)

/-- The words it starts from stand below the `n` new ones. -/
theorem extendSchedule_drop (n : Nat) (ws : List Word) : (extendSchedule n ws).drop n = ws := by
  induction n generalizing ws with
  | zero => rfl
  | succ n ih =>
    calc (extendSchedule n (nextScheduleWord ws :: ws)).drop (n + 1)
      _ = ((extendSchedule n (nextScheduleWord ws :: ws)).drop n).drop 1 := List.drop_drop.symm
      _ = ws := by rw [ih]; rfl

/-- Every new word is made from the words below it (R162). -/
theorem extendSchedule_getD_new {n i : Nat} (ws : List Word) (hi : i < n) :
    (extendSchedule n ws).getD i 0 = nextScheduleWord ((extendSchedule n ws).drop (i + 1)) := by
  induction n generalizing ws with
  | zero => omega
  | succ n ih =>
    obtain hlt | rfl : i < n ∨ i = n := by omega
    · exact ih _ hlt
    · have hw : (extendSchedule (i + 1) ws).drop i = nextScheduleWord ws :: ws := extendSchedule_drop i _
      calc (extendSchedule (i + 1) ws).getD i 0
        _ = ((extendSchedule (i + 1) ws).drop i).getD 0 0 := (getD_drop _ i 0).symm
        _ = nextScheduleWord ws := by rw [hw]; rfl
        _ = nextScheduleWord ((extendSchedule (i + 1) ws).drop (i + 1)) := by rw [extendSchedule_drop]

/-- Word t of the schedule, in the order the words are made, newest first. -/
theorem schedule_getD {blk : List Byte} (hblk : blk.length = 64) {t : Nat} (ht : t < 80) :
    (schedule blk).getD t 0 = (extendSchedule 64 (blockWords blk).reverse).getD (79 - t) 0 := by
  have hlen : (extendSchedule 64 (blockWords blk).reverse).length = 80 := by
    simp [blockWords_length, hblk]
  rw [schedule, List.getD_reverse _ (by omega), hlen]

/-- Words 0 to 15 of the schedule are the words of the block (R161). -/
theorem schedule_getD_block {blk : List Byte} (hblk : blk.length = 64) {t : Nat} (ht : t < 16) :
    (schedule blk).getD t 0 = (blockWords blk).getD t 0 := by
  have hlen : (blockWords blk).length = 16 := by rw [blockWords_length, hblk]
  calc (schedule blk).getD t 0
    _ = (extendSchedule 64 (blockWords blk).reverse).getD (64 + (15 - t)) 0 := by
      rw [schedule_getD hblk (by omega), show 79 - t = 64 + (15 - t) by omega]
    _ = (blockWords blk).reverse.getD (15 - t) 0 := by rw [← getD_drop, extendSchedule_drop]
    _ = (blockWords blk).getD t 0 := by
      rw [List.getD_reverse _ (by omega), hlen, show 16 - 1 - (15 - t) = t by omega]

/-- Words 16 to 79 of the schedule follow the recurrence (R162). -/
theorem schedule_getD_recurrence {blk : List Byte} (hblk : blk.length = 64) {t : Nat} (ht16 : 16 ≤ t) (ht : t < 80) :
    (schedule blk).getD t 0 =
      rotl32 ((schedule blk).getD (t - 3) 0 ^^^ (schedule blk).getD (t - 8) 0 ^^^ (schedule blk).getD (t - 14) 0 ^^^
        (schedule blk).getD (t - 16) 0) 1 := by
  have hback (k : Nat) (hk : k < 16) :
      ((extendSchedule 64 (blockWords blk).reverse).drop (79 - t + 1)).getD k 0 =
        (schedule blk).getD (t - (k + 1)) 0 := by
    rw [schedule_getD hblk (by omega), getD_drop, show 79 - t + 1 + k = 79 - (t - (k + 1)) by omega]
  rw [schedule_getD hblk ht, extendSchedule_getD_new _ (by omega), nextScheduleWord, hback 2 (by decide),
    hback 7 (by decide), hback 13 (by decide), hback 15 (by decide)]

/-- Settles O38: the length, then the words of the block, then the recurrence. -/
theorem scheduleWords : Obligations.ScheduleWords := fun blk hblk =>
  ⟨schedule_length blk hblk,
    fun t ht => (schedule_getD_block hblk ht).trans (blockWords_getD blk t (by omega)),
    fun _ ht16 ht => schedule_getD_recurrence hblk ht16 ht⟩

/-! ### The rounds -/

/-- The rounds over a list of schedule words are a fold over the round numbers (R171). -/
theorem runRounds_eq_foldl_range (t : Nat) (ws : List Word) (r : Work) :
    runRounds t ws r =
      (List.range ws.length).foldl (fun r i => roundStep (t + i) (ws.getD i 0) r) r := by
  induction ws generalizing t r with
  | nil => rfl
  | cons w ws ih =>
    rw [runRounds, ih, List.length_cons, List.range_succ_eq_map, List.foldl_cons, List.foldl_map]
    simp only [Nat.add_assoc, Nat.add_comm 1, List.getD_cons_succ]
    rfl

/-- The working registers after a block: rounds 0 to 79 in order, from the accumulator (R169 to R171). -/
theorem compressWork_eq_foldl_range (x : Accum) {blk : List Byte} (hblk : blk.length = 64) :
    compressWork x blk =
      (List.range 80).foldl (fun r t => roundStep t ((schedule blk).getD t 0) r) (Work.init x) := by
  rw [compressWork, runRounds_eq_foldl_range, schedule_length blk hblk]
  simp only [Nat.zero_add]

/-- Settles O42: the feed-forward of the fold of the eighty rounds. -/
theorem compressIsEightyRoundsAndFeedForward : Obligations.CompressIsEightyRoundsAndFeedForward := fun x _ hblk =>
  congrArg (feedForward x) (compressWork_eq_foldl_range x hblk)

/-! ### The round constants -/

/-- Settles O39: the comparisons of `roundConst`, decided in each of the four ranges. -/
theorem roundConstants : Obligations.RoundConstants := by
  intro t
  refine ⟨fun h => ?_, fun h20 h39 => ?_, fun h40 h59 => ?_, fun h60 _ => ?_⟩
  · exact if_pos h
  · rw [roundConst, if_neg (by omega), if_pos h39]
  · rw [roundConst, if_neg (by omega), if_neg (by omega), if_pos h59]
  · rw [roundConst, if_neg (by omega), if_neg (by omega), if_neg (by omega)]

end Sys2Proof.Machine
end

section
/-! SUPPORT. Fault entry and the order of the checks (spec R201 to R204, R210), and the two steps in which no command is at
hand: the idle engine (R225, R242) and the reset input (R211, R240). -/

namespace Sys2Proof.Machine

/-! ### Fault entry -/

/-- What fault entry writes, and what it leaves of the registers and of the response channel (R204). -/
structure EntersFault (s t : State) : Prop where
  fault_set : t.fault = true
  cause_set : t.cause ≠ .none
  live_eq : t.live = s.live
  fresh_eq : t.fresh = s.fresh
  rspBuf_nil : t.rspBuf = []
  rspOut_eq : t.rspOut = s.rspOut
  rst_released : t.rst = false

/-- Only a rejected header, a late one and a command that raises a fault take a running engine to the fault state. The copy
that FINALIZE wrote before PAD_ASSERT is no live register (R143). -/
theorem step_entersFault {s t : State} (hs : s.fault = false) (h : step s = .next t) (ht : t.fault = true) :
    EntersFault s t := by
  cases step_next_move h with
  | resetInput => cases ht
  | deliver | awaitHost | idle | hold => cases hs.symm.trans ht
  | illegal hr _ hb | late hr _ hb => exact ⟨rfl, nofun, rfl, rfl, hb, rfl, hr⟩
  | run hr hf hb _ _ _ _ hx =>
    obtain rfl | rfl := exec_enters_fault hx hf ht
    · exact ⟨rfl, nofun, rfl, rfl, hb, rfl, hr⟩
    · exact ⟨rfl, nofun, rfl, rfl, hb, rfl, hr⟩

/-- A faulted engine takes no word (R204). -/
theorem cmdReady_of_fault {s : State} (h : s.fault = true) : s.cmdReady = false := by
  simp [State.cmdReady, h]

/-- Settles O11: fault entry leaves the registers and the response channel, a set FAULT holds `cmd_ready` at 0 whatever the
host does, and the reset input, which alone could give the next step, is released. -/
theorem faultEntryWritesOnlyStatus : Obligations.FaultEntryWritesOnlyStatus := by
  intro s t hs h ht
  obtain ⟨hfault, hcause, hlive, hfresh, hbuf, hout, hrst⟩ := step_entersFault hs h ht
  obtain ⟨hbit, hcode, -⟩ := statusShowsFaultCauseAndFresh t
  have hraised : t.cause = .illegalCommand ∨ t.cause = .sequenceError ∨ t.cause = .padAssert := by
    cases hc : t.cause with
    | none => exact absurd hc hcause
    | illegalCommand | sequenceError | padAssert => decide
  exact ⟨hraised, hbit.trans hfault, hcode, hlive, hfresh, hbuf, hout,
    fun a => cmdReady_of_fault ((host_fault t a).trans hfault), cmdReady_of_fault hfault, step_halted hrst hfault⟩

/-! ### The order of the checks -/

/-- The checks of a command after its header check, in the order of R210: FRESH, then the fullness of FINALIZE's copy. -/
def checkAfterHeader (k : Header) (s : State) : Cause :=
  if outOfSequence k s.fresh then .sequenceError
  else if k = .finalize ∧ s.live.bufLen.val ≠ s.live.totalLen.toNat % 64 then .padAssert
  else .none

theorem firstFailedCheck_of_rejected {hdr : Word} (h : ∃ e, decodeHeader hdr = .error e) (s : State) :
    firstFailedCheck hdr s = .illegalCommand := by
  obtain hopc | hopc | harg := (decodeHeader_rejects_iff hdr).mp h
  · exact if_pos (.inl hopc)
  · exact if_pos (.inr hopc)
  · rw [firstFailedCheck, if_pos harg, ite_self]

theorem firstFailedCheck_of_legal {hdr : Word} {k : Header} (h : decodeHeader hdr = .ok k) (s : State) :
    firstFailedCheck hdr s = checkAfterHeader k s := by
  obtain ⟨hopc, harg⟩ := (decodeHeader_eq_ok_iff hdr k).mp h
  cases k <;> simp [firstFailedCheck, checkAfterHeader, outOfSequence, opcOfHeader, argOfHeader, hopc, harg]

/-- A command run with CAUSE = 0 leaves in CAUSE the first check after the header that fails. -/
theorem exec_cause {i : Instr} {s t : State} (hc : s.cause = .none) (h : exec i s = .next t) :
    t.cause = checkAfterHeader i.header s := by
  cases exec_effect h with
  | reset | absorb => exact hc
  | setstate _ _ _ _ _ hf | setlen64 hf => simpa [checkAfterHeader, Instr.header, outOfSequence, hf] using hc
  | finalize hfull => simpa [checkAfterHeader, Instr.header, outOfSequence, hfull] using hc
  | padAssert hne => simp [checkAfterHeader, Instr.header, outOfSequence, hne]
  | late hseq => simp [checkAfterHeader, hseq]

/-- Taking a command with CAUSE = 0 leaves in CAUSE the first check that fails (R210). A command that waits for its payload
is in sequence and no FINALIZE, so none of its checks fails. -/
theorem takeCommand_cause {hdr : Word} {ws : List Word} {s t : State} (hc : s.cause = .none)
    (h : takeCommand hdr ws s = .next t) : t.cause = firstFailedCheck hdr s := by
  cases hk : decodeHeader hdr with
  | error e =>
    cases (takeCommand_illegal hk ws s).symm.trans h
    exact (firstFailedCheck_of_rejected ⟨e, hk⟩ s).symm
  | ok k =>
    rw [firstFailedCheck_of_legal hk]
    cases hseq : outOfSequence k s.fresh with
    | true =>
      cases (takeCommand_late hk hseq ws).symm.trans h
      simp [checkAfterHeader, hseq]
    | false =>
      by_cases hl : ws.length < k.payloadWords
      · cases (takeCommand_hold hk hseq hl).symm.trans h
        have hfin : k ≠ .finalize := fun hfin => Nat.not_lt_zero _ (hfin ▸ hl)
        simp [checkAfterHeader, hseq, hfin, hc]
      · rw [takeCommand_run hk hseq (Nat.not_lt.mp hl)] at h
        have hran := exec_cause (s := s.consumeTo _) hc h
        rwa [assemble_header (Nat.not_lt.mp hl)] at hran

/-- From a running engine with CAUSE = 0, a step sets FAULT exactly when it sets CAUSE (R28). -/
theorem step_fault_iff_cause {s t : State} (hf : s.fault = false) (hc : s.cause = .none) (h : step s = .next t) :
    t.fault = true ↔ t.cause ≠ .none := by
  obtain ⟨hfault, hcause⟩ | ⟨-, hfault, hcause⟩ | ⟨-, hfault, hcause⟩ := faultAndCauseChangeOnlyOnFaultOrReset s t h
  · simp [hfault, hcause, hf, hc]
  · simp [hfault, hcause]
  · simp [hfault, hcause]

/-- Settles O10: an idle engine takes the command of the header, which writes the first failing check to CAUSE, and FAULT
goes with it. -/
theorem firstFailedCheckIsTheCauseReported : Obligations.FirstFailedCheckIsTheCauseReported := by
  intro s hdr ws hidle hc hcmd
  obtain ⟨t, ht⟩ := takeCommand_answers_next hdr ws s
  have hstep : step s = .next t := (step_idle hidle hcmd).trans ht
  obtain ⟨-, hf, -, -⟩ := hidle
  have hcause : t.cause = firstFailedCheck hdr s := takeCommand_cause hc ht
  exact ⟨t, hstep, hcause, hcause ▸ step_fault_iff_cause hf hc hstep⟩

/-- Settles O9: both headers are legal and out of sequence while FRESH = 0, and the engine is halted after the fault
entry. -/
theorem lateCommandLeavesItsPayloadUntaken : Obligations.LateCommandLeavesItsPayloadUntaken := by
  intro s hdr ws hidle hfresh hcmd hlate
  have hheader : ∃ k, decodeHeader hdr = .ok k ∧ outOfSequence k s.fresh = true := by
    rw [hfresh]
    obtain rfl | rfl := hlate
    · exact ⟨.setstate, rfl, rfl⟩
    · exact ⟨.setlen64, rfl, rfl⟩
  obtain ⟨k, hk, hseq⟩ := hheader
  have hstep := step_idle_late hidle hcmd hk hseq
  obtain ⟨hr, -⟩ := hidle
  exact ⟨_, hstep, rfl, step_halted hr rfl⟩

/-! ### No command at hand -/

/-- Settles O18: with no command in progress and no word offered there is none to take. -/
theorem idleEngineKeepsItsState : Obligations.IdleEngineKeepsItsState := by
  intro s hidle hcmd
  have hstream : s.stream = [] := (idle_stream hidle).trans hcmd
  obtain ⟨hr, hf, -, hb⟩ := hidle
  exact ⟨step_noWord hr hf hb hstream, by simp [State.cmdReady, hr, hf, hb]⟩

/-- Settles O21: the step looks at the reset input first, and its answer holds the listed values. -/
theorem resetInputGivesTheResetValues : Obligations.ResetInputGivesTheResetValues := by
  intro s hr
  exact ⟨s.resetInput, step_resetInput hr, rfl, rfl, rfl, rfl, rfl, rfl, rfl, rfl, rfl, rfl, rfl, rfl⟩

end Sys2Proof.Machine
end

section
/-! SUPPORT. A command from its words to its last response (spec R243, R250, R251), and the reset input during a command
(R241). -/

namespace Sys2Proof.Machine

/-! ### Waiting -/

/-- Settles O15: an untaken response holds `cmd_ready` at 0, and the step is the host's to allow. -/
theorem responsesComeBeforeTheNextHeader : Obligations.ResponsesComeBeforeTheNextHeader := by
  intro s w rest hr hf hb
  exact ⟨by simp [State.cmdReady, hb], step_awaitHost hr hf hb, step_deliver hr hf hb⟩

/-- A running engine holds a legal header in sequence while its payload is short (R251). -/
theorem step_hold {s : State} {hdr : Word} {ws : List Word} {k : Header} (hr : s.rst = false) (hf : s.fault = false)
    (hb : s.rspBuf = []) (hs : s.stream = hdr :: ws) (hk : decodeHeader hdr = .ok k)
    (hseq : outOfSequence k s.fresh = false) (hl : ws.length < k.payloadWords) :
    step s = .next (s.holdForPayload (hdr :: ws)) :=
  (step_takeCommand hr hf hb hs).trans (takeCommand_hold hk hseq hl)

/-- Settles O16: SETSTATE while FRESH = 1 and ABSORB are in sequence, and each is short of the payload its header
announces. -/
theorem incompletePayloadHolds : Obligations.IncompletePayloadHolds := by
  intro s hdr ws hr hf hb hs hshort
  obtain ⟨hopc, harg, hfresh, hl⟩ | ⟨hopc, hl⟩ := hshort
  · have hk : decodeHeader hdr = .ok .setstate := (decodeHeader_eq_ok_iff hdr .setstate).mpr ⟨hopc, harg⟩
    have hseq : outOfSequence .setstate s.fresh = false := by simp [outOfSequence, hfresh]
    exact step_hold hr hf hb hs hk hseq hl
  · have hk : decodeHeader hdr = .ok (.absorb (argOf hdr)) := (decodeHeader_eq_ok_iff hdr _).mpr ⟨hopc, rfl⟩
    exact step_hold hr hf hb hs hk rfl hl

/-! ### Completion -/

/-- A ready host takes every untaken response word in order, one a step, and nothing else changes (R56). -/
theorem systemRun_deliverAll {s : State} (hr : s.rst = false) (hf : s.fault = false) (hy : s.rspReady = true) :
    systemRun (List.replicate s.rspBuf.length .engine) s =
      .next { s with rspBuf := [], rspOut := s.rspOut ++ s.rspBuf } := by
  generalize hb : s.rspBuf = ws
  induction ws generalizing s with
  | nil =>
    rw [List.length_nil, List.append_nil, ← hb]
    rfl
  | cons w ws ih =>
    rw [List.length_cons, systemRun_engine_succ _ (step_deliver hr hf hb hy), ih (s := s.deliver w ws) hr hf hy rfl,
      deliver_rspOut, List.append_assoc]
    rfl

/-- A command in sequence raises no fault when BUFLEN is TOTALLEN mod 64 (R152). -/
theorem exec_inSequence_keeps_fault {i : Instr} {s t : State} (hmod : s.live.totalLen.toNat % 64 = s.live.bufLen.val)
    (hseq : outOfSequence i.header s.fresh = false) (hx : exec i s = .next t) : t.fault = s.fault := by
  cases exec_effect hx with
  | reset | setstate | absorb | finalize | setlen64 => rfl
  | padAssert hne => exact absurd hmod.symm hne
  | late hlate => cases hseq.symm.trans hlate

/-- FINALIZE offers five words when BUFLEN is TOTALLEN mod 64 (R147). -/
theorem exec_finalize_rspBuf_length {s t : State} (hmod : s.live.totalLen.toNat % 64 = s.live.bufLen.val)
    (hx : exec .finalize s = .next t) : t.rspBuf.length = s.rspBuf.length + 5 := by
  cases (exec_finalize_of_total_mod hmod).symm.trans hx
  simp

/-- Settles O19: the first step is the command's effect, which raises no fault, and each later step gives one of the at
most five words it offers. -/
theorem acceptedCommandCompletes : Obligations.AcceptedCommandCompletes := by
  intro s i rest hinv hidle hy hd hseq
  rw [← idle_stream hidle] at hd
  obtain ⟨hr, hf, -, hb⟩ := hidle
  obtain ⟨u, hu⟩ := exec_answers_next i (s.consumeTo rest)
  have hstep : step s = .next u := (step_inSequence hr hf hb hd hseq).trans hu
  obtain ⟨hrst, hcmd, htaken, hready, hout, hquiet⟩ := exec_channels hu
  have hur : u.rst = false := hrst.trans hr
  have huf : u.fault = false :=
    (exec_inSequence_keeps_fault (s := s.consumeTo rest) hinv.total_mod hseq hu).trans hf
  have hbound : u.rspBuf.length ≤ 5 := (stepKeepsTheInvariant s u hinv hstep).rsp_bound
  have hrun : systemRun (List.replicate (u.rspBuf.length + 1) .engine) s =
      .next { u with rspBuf := [], rspOut := u.rspOut ++ u.rspBuf } :=
    (systemRun_engine_succ _ hstep).trans (systemRun_deliverAll hur huf (hready.trans hy))
  refine ⟨u.rspBuf.length + 1, _, u, Nat.succ_le_succ hbound, hrun, ⟨hur, huf, htaken, rfl⟩, hcmd, hu, rfl, rfl,
    congrArg (· ++ u.rspBuf) hout, fun hi => (hquiet hi).trans hb, ?_⟩
  rintro rfl
  simpa [hb] using exec_finalize_rspBuf_length (s := s.consumeTo rest) hinv.total_mod hu

/-! ### Reset during a command -/

/-- The reset input, asserted for one step of the engine and released (R240). -/
theorem systemRun_resetPulse (s : State) :
    systemRun [.host (.setRst true), .engine, .host (.setRst false)] s =
      .next ((s.host (.setRst true)).resetInput.host (.setRst false)) := by
  rw [systemRun_host, systemRun_engine_next _ (step_resetInput rfl)]
  rfl

/-- Settles O22: the reset input leaves nothing of the command in the engine, which is idle once the input is released,
and an idle engine takes the first word on the channel as a header. -/
theorem resetDuringACommandAbandonsIt : Obligations.ResetDuringACommandAbandonsIt := by
  intro s hdr ws hcmd
  have hidle : ((s.host (.setRst true)).resetInput.host (.setRst false)).idle := ⟨rfl, rfl, rfl, rfl⟩
  exact ⟨_, systemRun_resetPulse s, rfl, rfl, rfl, rfl, hidle, rfl, hcmd, step_idle hidle hcmd⟩

end Sys2Proof.Machine
end

section
/-! SUPPORT. The word operations of the rounds, bit by bit: the four round functions (spec R163 to R167) and the rotation
(R9). -/

namespace Sys2Proof.Machine

/-! ### The round functions -/

/-- Rounds 0 to 19: the bit of b chooses between those of c and d (R163). -/
theorem roundFun_getLsbD_choice {t : Nat} (h : t ≤ 19) (b c d : Word) {i : Nat} (hi : i < 32) :
    (roundFun t b c d).getLsbD i = if b.getLsbD i then c.getLsbD i else d.getLsbD i := by
  rw [roundFun, if_pos h, BitVec.getLsbD_or, BitVec.getLsbD_and, BitVec.getLsbD_and, BitVec.getLsbD_not,
    decide_eq_true hi]
  cases b.getLsbD i <;> simp

/-- Rounds 20 to 39 and 60 to 79: the parity of the three words (R164, R166). -/
theorem roundFun_eq_parity {t : Nat} (h : 20 ≤ t ∧ t ≤ 39 ∨ 60 ≤ t) (b c d : Word) :
    roundFun t b c d = b ^^^ c ^^^ d := by
  rw [roundFun, if_neg (by omega)]
  obtain ⟨-, h39⟩ | h60 := h
  · rw [if_pos h39]
  · rw [if_neg (by omega), if_neg (by omega)]

/-- The parity of the three words, bit by bit. -/
theorem roundFun_getLsbD_parity {t : Nat} (h : 20 ≤ t ∧ t ≤ 39 ∨ 60 ≤ t) (b c d : Word) (i : Nat) :
    (roundFun t b c d).getLsbD i = ((b.getLsbD i != c.getLsbD i) != d.getLsbD i) := by
  rw [roundFun_eq_parity h, BitVec.getLsbD_xor, BitVec.getLsbD_xor]

/-- Two of three bits are set exactly when at least two of them are. -/
theorem majority_eq_decide_two_le (b c d : Bool) :
    (b && c || b && d || c && d) = decide (2 ≤ b.toNat + c.toNat + d.toNat) := by
  decide +revert

/-- Rounds 40 to 59: the majority of the three bits (R165). -/
theorem roundFun_getLsbD_majority {t : Nat} (h40 : 40 ≤ t) (h59 : t ≤ 59) (b c d : Word) (i : Nat) :
    (roundFun t b c d).getLsbD i =
      decide (2 ≤ (b.getLsbD i).toNat + (c.getLsbD i).toNat + (d.getLsbD i).toNat) := by
  rw [roundFun, if_neg (by omega), if_neg (by omega), if_pos h59, ← majority_eq_decide_two_le]
  simp only [BitVec.getLsbD_or, BitVec.getLsbD_and]

/-- Settles O40: choice, parity, majority, parity in the four ranges of rounds. -/
theorem roundFunctionsBitByBit : Obligations.RoundFunctionsBitByBit := fun _ b c d i hi =>
  ⟨fun h19 => roundFun_getLsbD_choice h19 b c d hi,
    fun h20 h39 => roundFun_getLsbD_parity (.inl ⟨h20, h39⟩) b c d i,
    fun h40 h59 => roundFun_getLsbD_majority h40 h59 b c d i,
    fun h60 _ => roundFun_getLsbD_parity (.inr h60) b c d i⟩

/-! ### The rotation -/

/-- `rotl32` is the library's rotation of a word (R9). -/
theorem rotl32_eq_rotateLeft (x : Word) {n : Nat} (hn : n < 32) : rotl32 x n = x.rotateLeft n := by
  rw [BitVec.rotateLeft_def, Nat.mod_eq_of_lt hn, rotl32]

/-- Bit j of the rotated word: the n low bits are the n high bits of x, the others have moved up by n. -/
theorem rotl32_getLsbD (x : Word) {n j : Nat} (hn : n < 32) (hj : j < 32) :
    (rotl32 x n).getLsbD j = if j < n then x.getLsbD (32 - n + j) else x.getLsbD (j - n) := by
  rw [rotl32_eq_rotateLeft x hn, BitVec.getLsbD_rotateLeft, Nat.mod_eq_of_lt hn, decide_eq_true hj, Bool.true_and,
    Bool.cond_decide]

/-- Settles O41: a bit that stays below position 32 moves up by n, and one that passes it wraps round to a low position. -/
theorem rotationMovesBits : Obligations.RotationMovesBits := by
  intro x n i _ hn hi
  rw [rotl32_getLsbD x hn (Nat.mod_lt _ (by decide))]
  obtain hstay | hwrap := Nat.lt_or_ge (i + n) 32
  · rw [Nat.mod_eq_of_lt hstay, if_neg (by omega), Nat.add_sub_cancel]
  · have hmod : (i + n) % 32 = i + n - 32 := by omega
    rw [hmod, if_pos (by omega), show 32 - n + (i + n - 32) = i by omega]

end Sys2Proof.Machine
end
